-- ==== Sys2Proof/Word.lean ====
section
/-! DEFINITION. Words: the integers a memory cell or a register holds (spec/00_scope.md R6, R12).

The spec's pseudocode computes with mathematical integers, and a Word is one that lies in the range WORD_BITS gives.
The width is a parameter of the machine (R9), so it is an argument here: a Word is an Int of which `inWord` is true,
and that every register and memory word is one is an invariant of the step (Safety.lean, `State.WordsInRange`). -/

namespace Sys2Proof

/-- WMIN for words of `bits` bits (R6). -/
def wmin (bits : Nat) : Int := -((2 ^ (bits - 1) : Nat) : Int)

/-- WMAX for words of `bits` bits (R6). -/
def wmax (bits : Nat) : Int := ((2 ^ (bits - 1) : Nat) : Int) - 1

/-- `inWord(v)`: true iff WMIN <= v <= WMAX (R12). -/
def inWord (bits : Nat) (v : Int) : Bool := decide (wmin bits ≤ v) && decide (v ≤ wmax bits)

end Sys2Proof
end

