-- ==== Sys2Proof/Config.lean ====
section
/-! DEFINITION. What is fixed for one machine: the capacity (spec/00_scope.md R5), the signals (R8), and the parameters
that R9 lets a model take as arguments. A `Params` is plain data inside State, so a claim about every state is a claim
about every choice of them (notes/assumptions/7.md). The OPEN values are opaque constants: nothing in Lean knows them. -/

namespace Sys2Proof

/-- CAPACITY: memory has exactly 128 words. Fixed, not a parameter (R5). -/
abbrev capacity : Nat := 128

/-- The five signals of a TerminationRecord (R8). -/
inductive Signal
  | explicitHalt
  | endOfProgram
  | outOfMemory
  | invalidOpcode
  | other
  deriving DecidableEq, Repr

/-- A TerminationRecord's `exitCode`: a 16-bit signed integer (R8). Its value is `toInt`. -/
abbrev ExitCode := BitVec 16

/-- OVERFLOW_POLICY (R9, spec/41_arithmetic.md R101). -/
inductive OverflowPolicy
  | undefined
  | wrap
  deriving DecidableEq, Repr

/-- DIV_ZERO_POLICY (R9, spec/41_arithmetic.md R103). -/
inductive DivZeroPolicy
  | other
  | undefined
  deriving DecidableEq, Repr

/-- `signalCode : Signal -> Int16` written out as data, one value per signal (R9, spec/60_exceptions.md R153).
The value for EXPLICIT_HALT is part of the function but no rule records it. -/
structure SignalCodes where
  explicitHalt  : ExitCode
  endOfProgram  : ExitCode
  outOfMemory   : ExitCode
  invalidOpcode : ExitCode
  other         : ExitCode
  deriving DecidableEq, Repr

/-- `signalCode` read as a function of the signal (R153). -/
def SignalCodes.code (c : SignalCodes) : Signal → ExitCode
  | .explicitHalt  => c.explicitHalt
  | .endOfProgram  => c.endOfProgram
  | .outOfMemory   => c.outOfMemory
  | .invalidOpcode => c.invalidOpcode
  | .other         => c.other

/-- The parameters of R9 that are single values. The draw `memInit` stands in the memory and the input oracle in the
state's `input`. -/
structure Params where
  wordBits : Nat
  overflow : OverflowPolicy
  divZero  : DivZeroPolicy
  codes    : SignalCodes
  deriving DecidableEq, Repr

/-- WORD_BITS must be at least 16 (R9). -/
def Params.wf (p : Params) : Bool := decide (16 ≤ p.wordBits)

/-- signalCode, OPEN: the spec gives no number (R153, spec/90_conflicts.md C5), so this constant has no body.
Free value, notes/assumptions/4.md. -/
opaque Config.signalCode : Signal → ExitCode

/-- The one line terminator that follows an output value on the console (spec/43_io.md R144). Which characters it is,
the spec does not say. Free value, notes/assumptions/10.md. -/
opaque Config.lineTerminator : String

/-- `Config.signalCode` as data. -/
def Config.openCodes : SignalCodes where
  explicitHalt  := Config.signalCode .explicitHalt
  endOfProgram  := Config.signalCode .endOfProgram
  outOfMemory   := Config.signalCode .outOfMemory
  invalidOpcode := Config.signalCode .invalidOpcode
  other         := Config.signalCode .other

/-- The defaults of R9's table, with the OPEN `signalCode`. -/
def Params.specDefault : Params where
  wordBits := 32
  overflow := .undefined
  divZero  := .other
  codes    := Config.openCodes

end Sys2Proof
end

