-- ==== Sys2Proof/Machine/Bits.lean ====
section
/-! DEFINITION. Wrapping, and the bitwise view of a Word (spec/00_scope.md R12, R14). `bits` is WORD_BITS. -/

namespace Sys2Proof.Machine

/-- `wrap(v)`: the integer in WMIN..WMAX congruent to `v` modulo 2^WORD_BITS (R12). -/
def wrap (bits : Nat) (v : Int) : Int := Int.bmod v (2 ^ bits)

/-- The WORD_BITS-bit two's complement representation of a Word (R14). -/
def toBits (bits : Nat) (v : Int) : BitVec bits := BitVec.ofInt bits v

/-- `a & b`, read back as a two's complement Word (R14). -/
def bitAnd (bits : Nat) (a b : Int) : Int := (toBits bits a &&& toBits bits b).toInt

/-- `a | b`, read back as a two's complement Word (R14). -/
def bitOr (bits : Nat) (a b : Int) : Int := (toBits bits a ||| toBits bits b).toInt

/-- `a ^ b`, read back as a two's complement Word (R14). -/
def bitXor (bits : Nat) (a b : Int) : Int := (toBits bits a ^^^ toBits bits b).toInt

/-- `~a`, read back as a two's complement Word (R14). -/
def bitNot (bits : Nat) (a : Int) : Int := (~~~ toBits bits a).toInt

/-- `quot(x, y)`: `x / y` rounded toward zero (spec/41_arithmetic.md R102). -/
def quot (x y : Int) : Int := Int.tdiv x y

/-- `rem(x, y) = x - y * quot(x, y)` (spec/41_arithmetic.md R102). -/
def rem (x y : Int) : Int := x - y * quot x y

end Sys2Proof.Machine
end

