-- ==== Sys2Proof/Syntax.lean ====
section
/-! DEFINITION. The 20 instructions of spec/30_encoding.md R66 as syntax: one constructor per row of the opcode table,
each with its operand `n`. R72's twenty-first kind, `invalid`, is the decoder's `none` (notes/assumptions/11.md). -/

namespace Sys2Proof

/-- An instruction: its kind and its operand, a non-negative integer (R62). The encoding admits 0..99
(WellFormed.lean), and the meanings say what the units do on every operand (spec/20_memory.md R45). -/
inductive Instr
  | nop    (n : Nat)
  | input  (n : Nat)
  | output (n : Nat)
  | load   (n : Nat)
  | store  (n : Nat)
  | add    (n : Nat)
  | sub    (n : Nat)
  | mul    (n : Nat)
  | div    (n : Nat)
  | mod    (n : Nat)
  | jmp    (n : Nat)
  | jz     (n : Nat)
  | halt   (n : Nat)
  | setA   (n : Nat)
  | setB   (n : Nat)
  | flat   (n : Nat)
  | and    (n : Nat)
  | or     (n : Nat)
  | xor    (n : Nat)
  | not    (n : Nat)
  deriving DecidableEq, Repr

/-- The operand `d1*10 + d0` (R61, R62). -/
def Instr.operand : Instr → Nat
  | .nop n | .input n | .output n | .load n | .store n | .add n | .sub n | .mul n | .div n | .mod n
  | .jmp n | .jz n | .halt n | .setA n | .setB n | .flat n | .and n | .or n | .xor n | .not n => n

/-- The functional units control is dispatched to (R65). -/
inductive FunctionalUnit
  | control
  | io
  | arithmetic
  | extended
  deriving DecidableEq, Repr

/-- The unit that executes an instruction: the column "unit" of R66. -/
def Instr.unit : Instr → FunctionalUnit
  | .nop _ | .jmp _ | .jz _ | .halt _ => .control
  | .input _ | .output _ => .io
  | .load _ | .store _ | .add _ | .sub _ | .mul _ | .div _ | .mod _ => .arithmetic
  | .setA _ | .setB _ | .flat _ | .and _ | .or _ | .xor _ | .not _ => .extended

end Sys2Proof
end

