-- ==== Sys2Proof/WellFormed.lean ====
section
/-! DEFINITION. Which instructions some word encodes: those whose operand is two decimal digits
(spec/30_encoding.md R61, R62). There is no other check: no operand names a register and none is reserved (R63, R68). -/

namespace Sys2Proof

/-- The operand lies in 0..99 (R61). -/
def Instr.wellFormed (i : Instr) : Bool := decide (i.operand < 100)

end Sys2Proof
end

