-- ==== Sys2Proof/Decode.lean ====
section
/-! DEFINITION. The decoder, total on every integer word, and the encoder (spec/30_encoding.md R60-R70). Decoding is
decimal: the opcode is the word's two high digits and the operand its two low ones. It is done in the spec's two stages:
the pair (R61), then the dispatch by opcode range to a unit that knows its own opcodes (R65, R111, R128). -/

namespace Sys2Proof

/-- The decoder's output as R72's closed enumeration: the 20 kinds of R66, each with its operand, and `invalid`.
Instr is the 20 of them that the opcode table lists (notes/assumptions/11.md). -/
inductive DecodedWord
  | nop    (n : Nat)
  | input  (n : Nat)
  | output (n : Nat)
  | load   (n : Nat)
  | store  (n : Nat)
  | add    (n : Nat)
  | sub    (n : Nat)
  | mul    (n : Nat)
  | div    (n : Nat)
  | mod    (n : Nat)
  | jmp    (n : Nat)
  | jz     (n : Nat)
  | halt   (n : Nat)
  | setA   (n : Nat)
  | setB   (n : Nat)
  | flat   (n : Nat)
  | and    (n : Nat)
  | or     (n : Nat)
  | xor    (n : Nat)
  | not    (n : Nat)
  | invalid
  deriving DecidableEq, Repr

/-- The instruction of the opcode table, if the word is one. -/
def DecodedWord.instr? : DecodedWord → Option Instr
  | .nop n => some (.nop n)
  | .input n => some (.input n)
  | .output n => some (.output n)
  | .load n => some (.load n)
  | .store n => some (.store n)
  | .add n => some (.add n)
  | .sub n => some (.sub n)
  | .mul n => some (.mul n)
  | .div n => some (.div n)
  | .mod n => some (.mod n)
  | .jmp n => some (.jmp n)
  | .jz n => some (.jz n)
  | .halt n => some (.halt n)
  | .setA n => some (.setA n)
  | .setB n => some (.setB n)
  | .flat n => some (.flat n)
  | .and n => some (.and n)
  | .or n => some (.or n)
  | .xor n => some (.xor n)
  | .not n => some (.not n)
  | .invalid => none

/-- `decode(w) = (opcode, operand)` for a word in 0..9999, and no pair for any other word (R61, R64). -/
def decodeFields (w : Int) : Option (Nat × Nat) :=
  if 0 ≤ w ∧ w ≤ 9999 then some (w.toNat / 100, w.toNat % 100) else none

/-- Dispatch by opcode range (R65). `none` is the row "any other". -/
def unitOfOpcode (op : Nat) : Option FunctionalUnit :=
  if op = 0 ∨ op = 40 ∨ op = 42 ∨ op = 44 then some .control
  else if op = 10 ∨ op = 12 then some .io
  else if 20 ≤ op ∧ op < 40 then some .arithmetic
  else if 50 ≤ op ∧ op < 70 then some .extended
  else none

/-- The control unit's own opcodes (R65, R66). -/
def controlInstr (op n : Nat) : DecodedWord :=
  if op = 0 then .nop n
  else if op = 40 then .jmp n
  else if op = 42 then .jz n
  else if op = 44 then .halt n
  else .invalid

/-- The I/O unit's opcodes (R66, spec/43_io.md R140). -/
def ioInstr (op n : Nat) : DecodedWord :=
  if op = 10 then .input n
  else if op = 12 then .output n
  else .invalid

/-- The arithmetic unit's seven opcodes; any other in its range is an invalid-opcode failure
(R66, spec/41_arithmetic.md R100, R111). -/
def arithmeticInstr (op n : Nat) : DecodedWord :=
  if op = 20 then .load n
  else if op = 22 then .store n
  else if op = 30 then .add n
  else if op = 32 then .sub n
  else if op = 34 then .mul n
  else if op = 36 then .div n
  else if op = 38 then .mod n
  else .invalid

/-- The extended unit's seven opcodes; any other in its range is invalid (R66, spec/42_extended.md R120, R128). -/
def extendedInstr (op n : Nat) : DecodedWord :=
  if op = 50 then .setA n
  else if op = 52 then .setB n
  else if op = 54 then .flat n
  else if op = 60 then .and n
  else if op = 62 then .or n
  else if op = 64 then .xor n
  else if op = 66 then .not n
  else .invalid

/-- What a pair stands for (R65-R67). -/
def instrOfFields (op n : Nat) : DecodedWord :=
  match unitOfOpcode op with
  | some .control    => controlInstr op n
  | some .io         => ioInstr op n
  | some .arithmetic => arithmeticInstr op n
  | some .extended   => extendedInstr op n
  | none             => .invalid

/-- The decoder, total: one of the 20 kinds or `invalid` (R64, R67, R68, R72). -/
def decodeWord (w : Int) : DecodedWord :=
  match decodeFields w with
  | some (op, n) => instrOfFields op n
  | none         => .invalid

/-- The decoder's output as an instruction of the table; `none` is `invalid` (R72). -/
def decode (w : Int) : Option Instr := (decodeWord w).instr?

/-- The opcode of an instruction (R66). -/
def Instr.opcode : Instr → Nat
  | .nop _    => 0
  | .input _  => 10
  | .output _ => 12
  | .load _   => 20
  | .store _  => 22
  | .add _    => 30
  | .sub _    => 32
  | .mul _    => 34
  | .div _    => 36
  | .mod _    => 38
  | .jmp _    => 40
  | .jz _     => 42
  | .halt _   => 44
  | .setA _   => 50
  | .setB _   => 52
  | .flat _   => 54
  | .and _    => 60
  | .or _     => 62
  | .xor _    => 64
  | .not _    => 66

/-- The word of an instruction: `op*100 + n` (R61, R71). -/
def encode (i : Instr) : Int := ((i.opcode * 100 + i.operand : Nat) : Int)

/-- The 80 illegal opcodes, as R67 lists them. -/
def illegalOpcode (op : Nat) : Bool :=
  decide (1 ≤ op ∧ op ≤ 9)
  || decide (op = 11) || decide (13 ≤ op ∧ op ≤ 19)
  || [21, 23, 24, 25, 26, 27, 28, 29, 31, 33, 35, 37, 39].contains op
  || [41, 43, 45, 46, 47, 48, 49].contains op
  || [51, 53, 55, 56, 57, 58, 59, 61, 63, 65, 67, 68, 69].contains op
  || decide (70 ≤ op ∧ op ≤ 99)

/-- The Word whose two's complement bits are the low `nbits` bits of `w`, the bits above them zero
(spec/00_scope.md R14; notes/assumptions/20.md). -/
def wordOfBits (bits nbits w : Nat) : Int := Machine.wrap bits ((w % 2 ^ nbits : Nat) : Int)

/-- The instruction the decoder reads from a word given as bits, at the default WORD_BITS of 32. -/
def decodeTableWord (nbits w : Nat) : Option Instr := decode (wordOfBits 32 nbits w)

end Sys2Proof
end

