-- ==== Sys2Proof/Machine/Parameters.lean ====
section
/-! DEFINITION. The choices of the spec's parameters that State.reset is built with. No rule of the machine depends on
them: every operation reads the parameters from the state (spec/00_scope.md R9). -/

namespace Sys2Proof.Machine

/-- The parameters of State.reset: R9's defaults, but OVERFLOW_POLICY is `wrap`. R166 (spec/60_exceptions.md) allows a
model that choice, and with it and DIV_ZERO_POLICY `other` no step stops with the model-only fault.
DESIGN CHOICE, notes/assumptions/1.md, 2.md and 3.md. -/
def resetParams : Params := { Params.specDefault with overflow := .wrap }

/-- The draw `memInit` of State.reset (spec/70_reset_and_hazards.md R171): the spec gives no contents.
DESIGN CHOICE, notes/assumptions/5.md. -/
def resetDraw : Vector Int capacity := Vector.replicate capacity 0

end Sys2Proof.Machine
end

