-- ==== Sys2Proof/Machine/State.lean ====
section
/-! DEFINITION. The machine's state as plain data (spec/10_state.md R20), the reasons a step can stop, and the state
after construction (R32, spec/70_reset_and_hazards.md R170). -/

namespace Sys2Proof.Machine

/-- A memory word that has been written: its address and its value. The smallest unit the machine addresses is a whole
word (spec/20_memory.md R47), so a cell holds a Word and not a byte (notes/assumptions/6.md). -/
abbrev WordCell := Nat × Int

/-- `M`, 128 words (R42): the words that differ from the draw, in rising order of address, and the draw `memInit` that
every other address reads as (R51, R171). The canonical form is `Memory.wf` in Ops.lean. -/
structure Memory where
  cells : List WordCell
  draw  : Vector Int capacity
  deriving DecidableEq, Repr

/-- The state of the fetch-execute state machine (R27, R80). -/
inductive RunState
  | running
  | halted
  deriving DecidableEq, Repr

/-- The TerminationRecord (spec/00_scope.md R8, R28). -/
structure TerminationRecord where
  exitCode : ExitCode
  signal   : Signal
  deriving DecidableEq, Repr

/-- One answer of the host to an input request (spec/43_io.md R141). An integer outside the Word range is also an
error of R141, found when the answer is read. -/
inductive InputAnswer
  | value (v : Int)
  | nonNumeric
  | endOfInput
  deriving DecidableEq, Repr

/-- The complete state (R20), with the parameters (R9) and the contents of the two I/O ports (R11, R30, R146). -/
structure State where
  params : Params
  mem    : Memory
  pc     : Nat
  ir     : Int
  acc    : Int
  auxA   : Int
  auxB   : Int
  run    : RunState
  term   : Option TerminationRecord
  input  : List InputAnswer
  output : List Int
  deriving DecidableEq, Repr

/-- Why the model stops: the spec's model-only outcome `Undefined(reason)` (spec/60_exceptions.md R150, R166). It marks a
place where the source gives the hardware no behaviour, so stopping is safe: nothing can be proved past it. Each fault
carries the state it leaves, in which the instruction has done nothing and `ir` holds its word (R157). -/
inductive Fault
  /-- Raised by ADD, SUB, MUL, DIV and MOD on a result outside the Word range, only under OVERFLOW_POLICY `undefined`
  (R101). Safe. -/
  | undefinedOverflow (left : State)
  /-- Raised by DIV and MOD on a zero divisor, only under DIV_ZERO_POLICY `undefined` (R103). Safe. -/
  | undefinedDivideByZero (left : State)
  deriving DecidableEq, Repr

/-- The state a fault leaves (R157). It is not final, and no step follows it (R166). -/
def Fault.left : Fault → State
  | .undefinedOverflow s     => s
  | .undefinedDivideByZero s => s

/-- The fault for the same reason, leaving another state. -/
def Fault.mapLeft (f : State → State) : Fault → Fault
  | .undefinedOverflow s     => .undefinedOverflow (f s)
  | .undefinedDivideByZero s => .undefinedDivideByZero (f s)

/-- Why the model refuses to give a meaning. -/
inductive Refusal
  /-- Raised by an arm of exec whose instruction has no meaning yet. No arm is in that state. Safe. -/
  | notModelled (mnemonic : String)
  deriving DecidableEq, Repr

/-- The machine right after construction, from the arguments a model takes (R9, R32, R170): its parameters, the draw
`memInit`, and the input oracle's answers. -/
def State.construct (p : Params) (memInit : Vector Int capacity) (answers : List InputAnswer) : State where
  params := p
  mem    := ⟨[], memInit⟩
  pc     := 0
  ir     := 0
  acc    := 0
  auxA   := 0
  auxB   := 0
  run    := .running
  term   := none
  input  := answers
  output := []

/-- The machine right after reset: construction with the choices of Parameters.lean, and no input answered yet
(notes/assumptions/8.md). -/
def State.reset : State := State.construct resetParams resetDraw []

end Sys2Proof.Machine
end

