-- ==== Sys2Proof/Machine/Ops.lean ====
section
/-! DEFINITION. The shared operations: the bounds checker and memory (spec/20_memory.md), the registers, the two I/O
ports (spec/43_io.md), the halting transition, which is all there is to taking an exception (spec/60_exceptions.md R151,
R158; there is no return from one), and step 4 of the step, which maps a unit's outcome to the next state
(spec/40_control.md R85). -/

namespace Sys2Proof.Machine

/-! ## Memory -/

/-- The bounds check: true iff 0 <= i < CAPACITY, for every integer (R40). -/
def checkBound (i : Int) : Bool := decide (0 ≤ i) && decide (i < capacity)

/-- The word the draw `memInit` gives an address (R171). No access reaches an address past the capacity (R41). -/
def Memory.drawn (m : Memory) (a : Nat) : Int := m.draw[a]?.getD 0

/-- The value a list of cells gives an address, if it lists it. -/
def lookupCell (a : Nat) : List WordCell → Option Int
  | [] => none
  | (b, v) :: cs => if b = a then some v else lookupCell a cs

/-- Put a cell in its place in a rising list that does not list its address. -/
def insertCell (a : Nat) (v : Int) : List WordCell → List WordCell
  | [] => [(a, v)]
  | (b, w) :: cs => if b < a then (b, w) :: insertCell a v cs else (a, v) :: (b, w) :: cs

/-- `MemRead(a, 1)` (R15): the last word written to `a`, else the drawn one (R51). -/
def Memory.read (m : Memory) (a : Nat) : Int := (lookupCell a m.cells).getD (m.drawn a)

/-- `MemWrite(a, 1, v)` (R15). A word equal to the drawn one is not listed, so that equal memories are equal data. -/
def Memory.write (m : Memory) (a : Nat) (v : Int) : Memory :=
  let others := m.cells.filter (fun c => c.1 != a)
  { m with cells := if v = m.drawn a then others else insertCell a v others }

/-- Cells rise strictly from `lo`, lie below the capacity, and differ from the draw. -/
def Memory.cellsWf (m : Memory) (lo : Nat) : List WordCell → Bool
  | [] => true
  | (a, v) :: cs => decide (lo ≤ a) && decide (a < capacity) && decide (v ≠ m.drawn a) && m.cellsWf (a + 1) cs

/-- The canonical form of memory (notes/assumptions/6.md). -/
def Memory.wf (m : Memory) : Bool := m.cellsWf 0 m.cells

/-! ## Registers -/

/-- `acc <- v` (R15, R23). -/
def State.setAcc (s : State) (v : Int) : State := { s with acc := v }

/-- `auxA <- v` (R15, R24). -/
def State.setAuxA (s : State) (v : Int) : State := { s with auxA := v }

/-- `auxB <- v` (R15, R24). -/
def State.setAuxB (s : State) (v : Int) : State := { s with auxB := v }

/-- `ir <- w`, at the fetch (R22, R83). -/
def State.setIr (s : State) (w : Int) : State := { s with ir := w }

/-- `pc <- target` (R15). -/
def State.setPc (s : State) (target : Nat) : State := { s with pc := target }

/-- `M[a] <- v`. -/
def State.storeWord (s : State) (a : Nat) (v : Int) : State := { s with mem := s.mem.write a v }

/-- The accumulator's read-only accessor, the control unit's only way to it (spec/40_control.md R92). -/
def State.readAcc (s : State) : Int := s.acc

/-! ## The I/O ports -/

/-- `OutWrite(v)`: one Word to the console, never failing (R144, R146). -/
def State.outWrite (s : State) (v : Int) : State := { s with output := s.output ++ [v] }

/-- The k-th IN consumes the k-th answer (R146): drop the answer just read. -/
def State.takeAnswer (s : State) : State := { s with input := s.input.tail }

/-- The host answers an input request (R185). It may answer before the request: answers wait in order. -/
def State.answerInput (s : State) (a : InputAnswer) : State := { s with input := s.input ++ [a] }

/-- The Word an answer gives, or `none` for `error`: not a base-10 integer, the input ended, or outside the Word
range (R141). -/
def answerWord (bits : Nat) : InputAnswer → Option Int
  | .value v    => if inWord bits v then some v else none
  | .nonNumeric => none
  | .endOfInput => none

/-- The text of an output value on the console: base 10, an optional `-`, no leading zeros, one line terminator
(R144). -/
def consoleLine (v : Int) : String := toString v ++ Config.lineTerminator

/-! ## Exceptions -/

/-- `halt(sig, code)`, the halting transition: `run` and `term`, and nothing else (R151). -/
def State.halt (s : State) (sig : Signal) (code : ExitCode) : State :=
  { s with run := .halted, term := some ⟨code, sig⟩ }

/-- The halting transition for a signal other than EXPLICIT_HALT, with the exit code `signalCode(sig)` (R153, R154). -/
def State.haltSignal (s : State) (sig : Signal) : State := s.halt sig (s.params.codes.code sig)

/-- Why a unit raises `Other` (R150). The record does not tell the two apart (R154). -/
inductive OtherReason
  | divideByZero
  | inputError
  deriving DecidableEq, Repr

/-- Why a unit raises the model-only `Undefined` (R150). -/
inductive UndefinedReason
  | overflow
  | divideByZero
  deriving DecidableEq, Repr

/-- The failure outcomes of a unit operation (R15, R150). -/
inductive Failure
  | outOfBounds (a : Int)
  | invalidOpcode
  | explicitHalt (code : ExitCode)
  | other (r : OtherReason)
  | undefined (r : UndefinedReason)
  deriving DecidableEq, Repr

/-- What a unit operation gives back (R150). A failure carries no state: it writes none (R41, R157). -/
inductive UnitResult
  /-- `Success`, the operation did not set `pc`. -/
  | success (s : State)
  /-- `Success`, the operation set `pc` (JMP, JZ taken). -/
  | jumped (s : State)
  /-- Waiting on the input port: no outcome yet (R82, R147). -/
  | held
  /-- `raise K(info)` (R15). -/
  | raised (k : Failure)
  deriving DecidableEq, Repr

/-- Step 4: the next state for a failure of the operation that began in `s` (R85), or the fault, which leaves `s` (R157). -/
def raiseFailure (s : State) : Failure → Host.Outcome State Fault Refusal
  | .outOfBounds _           => .next (s.haltSignal .outOfMemory)
  | .invalidOpcode           => .next (s.haltSignal .invalidOpcode)
  | .explicitHalt code       => .next (s.halt .explicitHalt code)
  | .other _                 => .next (s.haltSignal .other)
  | .undefined .overflow     => .fault (.undefinedOverflow s)
  | .undefined .divideByZero => .fault (.undefinedDivideByZero s)

/-- Step 4: the next state for every outcome of the operation that began in `s` (R84, R85, R147). -/
def retire (s : State) : UnitResult → Host.Outcome State Fault Refusal
  | .success t => .next (t.setPc (t.pc + 1))
  | .jumped t  => .next t
  | .held      => .next s
  | .raised k  => raiseFailure s k

end Sys2Proof.Machine
end

