-- ==== Sys2Proof/Machine/Operands.lean ====
section
/-! DEFINITION. The operand forms of spec/30_encoding.md R63: an absolute memory address read or written, an absolute
jump target, and the exit-code immediate. (The fourth form, ignored, needs nothing.) Every address is bounds-checked
before the access (spec/20_memory.md R41), and there is no other addressing mode (R62). -/

namespace Sys2Proof.Machine

/-- `if !checkBound(n): raise OutOfBounds(n)`, else go on with the word at `n`. -/
def withOperand (n : Nat) (s : State) (use : Int → UnitResult) : UnitResult :=
  if checkBound n then use (s.mem.read n) else .raised (.outOfBounds n)

/-- `if !checkBound(n): raise OutOfBounds(n); MemWrite(n, 1, v); succeed`. -/
def storeOperand (n : Nat) (v : Int) (s : State) : UnitResult :=
  if checkBound n then .success (s.storeWord n v) else .raised (.outOfBounds n)

/-- Jump target validation, on the target itself and whether or not the jump is taken
(spec/40_control.md R87, R88, R90). -/
def jumpIf (taken : Bool) (n : Nat) (s : State) : UnitResult :=
  if checkBound n then (if taken then .jumped (s.setPc n) else .success s) else .raised (.outOfBounds n)

/-- HALT's operand as an exit code: 0..99 fits with no conversion (spec/40_control.md R89). -/
def exitCodeOf (n : Nat) : ExitCode := BitVec.ofNat 16 n

end Sys2Proof.Machine
end

