-- ==== Sys2Proof/Machine/Arithmetic.lean ====
section
/-! DEFINITION. The arithmetic unit (spec/41_arithmetic.md R100-R112). -/

namespace Sys2Proof.Machine

/-- The overflow rule: the exact result `r` goes to `acc` if it is a Word, else OVERFLOW_POLICY decides (R101). -/
def settleAcc (s : State) (r : Int) : UnitResult :=
  if inWord s.params.wordBits r then .success (s.setAcc r)
  else match s.params.overflow with
    | .undefined => .raised (.undefined .overflow)
    | .wrap      => .success (s.setAcc (wrap s.params.wordBits r))

/-- A zero divisor writes no state, and DIV_ZERO_POLICY decides (R103). -/
def divisorZero (s : State) : UnitResult :=
  match s.params.divZero with
  | .other     => .raised (.other .divideByZero)
  | .undefined => .raised (.undefined .divideByZero)

/-- R101's one case for MOD, `WMIN mod -1`, whose exact remainder is 0. -/
def settleModOverflow (s : State) : UnitResult :=
  match s.params.overflow with
  | .undefined => .raised (.undefined .overflow)
  | .wrap      => .success (s.setAcc 0)

/-- LOAD: `acc <- M[n]` (R104). -/
def execLoad (n : Nat) (s : State) : Host.Outcome State Fault Refusal :=
  retire s (withOperand n s fun y => .success (s.setAcc y))

/-- STORE: `M[n] <- acc` (R105). -/
def execStore (n : Nat) (s : State) : Host.Outcome State Fault Refusal := retire s (storeOperand n s.acc s)

/-- ADD: `acc <- acc + M[n]` (R106). -/
def execAdd (n : Nat) (s : State) : Host.Outcome State Fault Refusal :=
  retire s (withOperand n s fun y => settleAcc s (s.acc + y))

/-- SUB: `acc <- acc - M[n]` (R107). -/
def execSub (n : Nat) (s : State) : Host.Outcome State Fault Refusal :=
  retire s (withOperand n s fun y => settleAcc s (s.acc - y))

/-- MUL: `acc <- acc * M[n]` (R108). -/
def execMul (n : Nat) (s : State) : Host.Outcome State Fault Refusal :=
  retire s (withOperand n s fun y => settleAcc s (s.acc * y))

/-- DIV: `acc <- quot(acc, M[n])` (R109). -/
def execDiv (n : Nat) (s : State) : Host.Outcome State Fault Refusal :=
  retire s (withOperand n s fun y => if y = 0 then divisorZero s else settleAcc s (quot s.acc y))

/-- MOD: `acc <- rem(acc, M[n])` (R110). -/
def execMod (n : Nat) (s : State) : Host.Outcome State Fault Refusal :=
  retire s (withOperand n s fun y =>
    if y = 0 then divisorZero s
    else if s.acc = wmin s.params.wordBits ∧ y = -1 then settleModOverflow s
    else .success (s.setAcc (rem s.acc y)))

end Sys2Proof.Machine
end

