-- ==== Sys2Proof/Machine/Flags.lean ====
section
/-! DEFINITION. The machine has no flags, condition codes or predicate registers, and no instruction has a flag side
effect (spec/10_state.md R25). The one condition an instruction tests is computed here, from `acc`, when JZ executes. -/

namespace Sys2Proof.Machine

/-- `acc == 0`, in full, through the read-only accessor (spec/40_control.md R88, R92). -/
def accIsZero (s : State) : Bool := decide (s.readAcc = 0)

end Sys2Proof.Machine
end

