-- ==== Sys2Proof/Machine/Control.lean ====
section
/-! DEFINITION. The control unit's own instructions (spec/40_control.md R86-R89). -/

namespace Sys2Proof.Machine

/-- NOP: its operand is ignored and it never fails (R86). -/
def execNop (_n : Nat) (s : State) : Host.Outcome State Fault Refusal := retire s (.success s)

/-- JMP: `pc <- n` (R87). -/
def execJmp (n : Nat) (s : State) : Host.Outcome State Fault Refusal := retire s (jumpIf true n s)

/-- JZ: `pc <- n` if `acc == 0`, else the next address (R88). -/
def execJz (n : Nat) (s : State) : Host.Outcome State Fault Refusal := retire s (jumpIf (accIsZero s) n s)

/-- HALT: the operand is the exit code, and is not bounds-checked (R89). -/
def execHalt (n : Nat) (s : State) : Host.Outcome State Fault Refusal :=
  retire s (.raised (.explicitHalt (exitCodeOf n)))

end Sys2Proof.Machine
end

