-- ==== Sys2Proof/Machine/Extended.lean ====
section
/-! DEFINITION. The extended unit (spec/42_extended.md R120-R129). -/

namespace Sys2Proof.Machine

/-- SETA: `auxA <- M[n]` (R121). -/
def execSetA (n : Nat) (s : State) : Host.Outcome State Fault Refusal :=
  retire s (withOperand n s fun y => .success (s.setAuxA y))

/-- SETB: `auxB <- M[n]` (R122). -/
def execSetB (n : Nat) (s : State) : Host.Outcome State Fault Refusal :=
  retire s (withOperand n s fun y => .success (s.setAuxB y))

/-- FLAT: both auxiliary registers become their bit 0; no memory access, operand ignored (R123). -/
def execFlat (_n : Nat) (s : State) : Host.Outcome State Fault Refusal :=
  retire s (.success ((s.setAuxA (bitAnd s.params.wordBits s.auxA 1)).setAuxB (bitAnd s.params.wordBits s.auxB 1)))

/-- AND: `M[n] <- auxA & auxB` (R124). -/
def execAnd (n : Nat) (s : State) : Host.Outcome State Fault Refusal :=
  retire s (storeOperand n (bitAnd s.params.wordBits s.auxA s.auxB) s)

/-- OR: `M[n] <- auxA | auxB` (R125). -/
def execOr (n : Nat) (s : State) : Host.Outcome State Fault Refusal :=
  retire s (storeOperand n (bitOr s.params.wordBits s.auxA s.auxB) s)

/-- XOR: `M[n] <- auxA ^ auxB` (R126). -/
def execXor (n : Nat) (s : State) : Host.Outcome State Fault Refusal :=
  retire s (storeOperand n (bitXor s.params.wordBits s.auxA s.auxB) s)

/-- NOT: `M[n] <- ~auxA`; `auxB` is not read (R127). -/
def execNot (n : Nat) (s : State) : Host.Outcome State Fault Refusal :=
  retire s (storeOperand n (bitNot s.params.wordBits s.auxA) s)

end Sys2Proof.Machine
end

