-- ==== Sys2Proof/Machine/InputOutput.lean ====
section
/-! DEFINITION. The I/O unit (spec/43_io.md R140-R147). The bounds check comes before the transaction. -/

namespace Sys2Proof.Machine

/-- Is the step held on the input port: an IN with a good address, and no answer from the host yet (R142, R147). -/
def awaitsInput (s : State) : Instr → Bool
  | .input n => checkBound n && s.input.isEmpty
  | .nop _ | .output _ | .load _ | .store _ | .add _ | .sub _ | .mul _ | .div _ | .mod _ | .jmp _ | .jz _
  | .halt _ | .setA _ | .setB _ | .flat _ | .and _ | .or _ | .xor _ | .not _ => false

/-- IN after its bounds check and with the host's answer `a`: the transaction consumes the answer, `error` raises
`Other(input_error)` and writes no memory, a value is stored (R142, R143). -/
def receive (n : Nat) (a : InputAnswer) (s : State) : Host.Outcome State Fault Refusal :=
  match answerWord s.params.wordBits a with
  | some v => retire s.takeAnswer (.success (s.takeAnswer.storeWord n v))
  | none   => retire s.takeAnswer (.raised (.other .inputError))

/-- IN: `M[n] <- input` (R142). With no answer it is held and changes nothing (R147). -/
def execInput (n : Nat) (s : State) : Host.Outcome State Fault Refusal :=
  if checkBound n then
    match s.input with
    | []     => retire s .held
    | a :: _ => receive n a s
  else retire s (.raised (.outOfBounds n))

/-- OUT: output `M[n]` (R145). -/
def execOutput (n : Nat) (s : State) : Host.Outcome State Fault Refusal :=
  retire s (withOperand n s fun v => .success (s.outWrite v))

end Sys2Proof.Machine
end

