-- ==== Sys2Proof/Machine/Dispatch.lean ====
section
/-! DEFINITION. One arm per instruction: step 3's dispatch (spec/40_control.md R82), then step 4 inside the meaning. -/

namespace Sys2Proof.Machine

def exec (i : Instr) (s : State) : Host.Outcome State Fault Refusal :=
  match i with
  | .nop n => Sys2Proof.Machine.execNop n s
  | .input n => Sys2Proof.Machine.execInput n s
  | .output n => Sys2Proof.Machine.execOutput n s
  | .load n => Sys2Proof.Machine.execLoad n s
  | .store n => Sys2Proof.Machine.execStore n s
  | .add n => Sys2Proof.Machine.execAdd n s
  | .sub n => Sys2Proof.Machine.execSub n s
  | .mul n => Sys2Proof.Machine.execMul n s
  | .div n => Sys2Proof.Machine.execDiv n s
  | .mod n => Sys2Proof.Machine.execMod n s
  | .jmp n => Sys2Proof.Machine.execJmp n s
  | .jz n => Sys2Proof.Machine.execJz n s
  | .halt n => Sys2Proof.Machine.execHalt n s
  | .setA n => Sys2Proof.Machine.execSetA n s
  | .setB n => Sys2Proof.Machine.execSetB n s
  | .flat n => Sys2Proof.Machine.execFlat n s
  | .and n => Sys2Proof.Machine.execAnd n s
  | .or n => Sys2Proof.Machine.execOr n s
  | .xor n => Sys2Proof.Machine.execXor n s
  | .not n => Sys2Proof.Machine.execNot n s

end Sys2Proof.Machine
end

