-- ==== Sys2Proof/Machine/Fetch.lean ====
section
/-! DEFINITION. The step of spec/40_control.md R82 around the execution of one instruction, which is the argument `run`;
Step.lean gives it `exec`. -/

namespace Sys2Proof.Machine

/-- The word at `pc`: the fetch of step 2 reads memory as every earlier write left it (R83, spec/20_memory.md R54). -/
def fetchWord (s : State) : Int := s.mem.read s.pc

/-- Steps 2 to 4, after the program-counter check. A step held on input changes nothing, `ir` included
(spec/43_io.md R147). -/
def fetchExecute (run : Instr → State → Host.Outcome State Fault Refusal) (s : State) :
    Host.Outcome State Fault Refusal :=
  match decode (fetchWord s) with
  | none   => retire (s.setIr (fetchWord s)) (.raised .invalidOpcode)
  | some i => if awaitsInput s i then .next s else run i (s.setIr (fetchWord s))

/-- The whole step: a halted machine is left as it is (R81), a `pc` that fails the check ends the run (step 1), and
otherwise the instruction at `pc` is fetched and executed. -/
def stepWith (run : Instr → State → Host.Outcome State Fault Refusal) (s : State) :
    Host.Outcome State Fault Refusal :=
  match s.run with
  | .halted  => .next s
  | .running => if checkBound s.pc then fetchExecute run s else .next (s.haltSignal .endOfProgram)

/-- Is the machine held on the input port: the instruction at `pc` waits for an answer (R147). -/
def isHeld (s : State) : Bool :=
  decide (s.run = .running) && checkBound s.pc && (decode (fetchWord s)).any (awaitsInput s)

/-- The step status (R85, R81, R147; spec/92_eei_decisions.md D10). It is the step's answer to the host (R11), not
state (notes/assumptions/13.md). -/
inductive StepStatus
  | continued
  | stopped
  | alreadyStopped
  | held
  | fault
  deriving DecidableEq, Repr

/-- The status of the step that begins in `s` and has the outcome `o` (R85). -/
def statusOf (s : State) (o : Host.Outcome State Fault Refusal) : StepStatus :=
  match s.run with
  | .halted => .alreadyStopped
  | .running =>
    if isHeld s then .held
    else match o with
      | .next t    => if t.run = .halted then .stopped else .continued
      | .fault _   => .fault
      | .refused _ => .fault

/-- Place a word where the next step fetches it, if there is such a place. -/
def placeWord (s : State) (w : Int) : State := if checkBound s.pc then s.storeWord s.pc w else s

end Sys2Proof.Machine
end

