-- ==== Sys2Proof/Machine/Step.lean ====
section
/-! DEFINITION. The step, its status, and the host's way to place an instruction. -/

namespace Sys2Proof.Machine

/-- One step of the machine (spec/40_control.md R82). -/
def step (s : State) : Host.Outcome State Fault Refusal := stepWith exec s

/-- The status the step reports to the host (spec/40_control.md R85). -/
def stepStatus (s : State) : StepStatus := statusOf s (step s)

/-- `s` with the word whose bits are `w` at the address the next step fetches from (notes/assumptions/17.md). -/
def State.withFetchWord (s : State) (nbits w : Nat) : State :=
  placeWord s (wordOfBits s.params.wordBits nbits w)

end Sys2Proof.Machine
end

