-- ==== Sys2Proof/Machine/Loader.lean ====
section
/-! DEFINITION. The Loader, the boot interface that makes the initial memory and `pc` from a program source
(spec/70_reset_and_hazards.md R172-R178; conflict C3 of spec/90_conflicts.md: two counters). -/

namespace Sys2Proof.Machine

/-- A token of the program source: a base-10 integer, or anything else (R173, R178). -/
inductive Token
  | int (v : Int)
  | malformed
  deriving DecidableEq, Repr

/-- The segment-boundary sentinel (R173, R175). -/
def sentinel : Int := -101

/-- The Loader algorithm, R174 line by line: `seg` counts sentinels, `cur` is the write cursor; `none` is `fail`. -/
def loadTokens (bits : Nat) : List Token → (seg cur : Nat) → (m : Memory) → (pc : Nat) → Option (Memory × Nat)
  | [], _, _, m, pc => some (m, pc)
  | .malformed :: _, _, _, _, _ => none
  | .int v :: ts, seg, cur, m, pc =>
    if v = sentinel then
      if seg + 1 = 2 then loadTokens bits ts (seg + 1) cur m cur
      else if 2 < seg + 1 then some (m, pc)
      else loadTokens bits ts (seg + 1) cur m pc
    else if !inWord bits v then none
    else if capacity ≤ cur then none
    else loadTokens bits ts seg (cur + 1) (m.write cur v) pc

/-- Load a program source into a constructed machine. `none`: loading failed, and no run exists (R172). -/
def State.load (s : State) (source : List Token) : Option State :=
  (loadTokens s.params.wordBits source 0 0 s.mem s.pc).map fun r => { s with mem := r.1, pc := r.2 }

/-! ## The source as text (R173: whitespace-separated base-10 integers; notes/assumptions/18.md) -/

/-- The value of a list of decimal digits, most significant first, after `acc`. -/
def digitsValue : List Char → (acc : Nat) → Option Nat
  | [], acc => some acc
  | c :: cs, acc => if c.isDigit then digitsValue cs (acc * 10 + (c.toNat - '0'.toNat)) else none

/-- One or more decimal digits. -/
def unsignedValue : List Char → Option Nat
  | [] => none
  | c :: cs => digitsValue (c :: cs) 0

/-- A run of characters with no whitespace, read as a token: an optional `-` and decimal digits. -/
def tokenOf : List Char → Token
  | '-' :: cs => match unsignedValue cs with
    | some n => .int (-(n : Int))
    | none => .malformed
  | cs => match unsignedValue cs with
    | some n => .int (n : Int)
    | none => .malformed

/-- Split text at whitespace: `word` holds the characters of the current token, last one first. -/
def tokensFrom : List Char → (word : List Char) → List Token
  | [], word => if word.isEmpty then [] else [tokenOf word.reverse]
  | c :: cs, word =>
    if c.isWhitespace then
      if word.isEmpty then tokensFrom cs [] else tokenOf word.reverse :: tokensFrom cs []
    else tokensFrom cs (c :: word)

/-- The tokens of a program source. -/
def tokens (source : List Char) : List Token := tokensFrom source []

/-- The host's answer for one token typed at the console (spec/43_io.md R141). -/
def Token.answer : Token → InputAnswer
  | .int v     => .value v
  | .malformed => .nonNumeric

/-- Construct and load from text: the machine the host's first step is taken on (R172, R185), or no machine. -/
def boot (p : Params) (memInit : Vector Int capacity) (answers : List InputAnswer) (source : List Char) :
    Option State :=
  (State.construct p memInit answers).load (tokens source)

end Sys2Proof.Machine
end

