-- ==== Sys2Proof/Safety.lean ====
section
/-! DEFINITION. What counts as a good state and a safe run, in the terms the claims use. -/

namespace Sys2Proof.Machine

/-- `pc` holds a value in 0..128 (spec/10_state.md R21). -/
def State.PcInRange (s : State) : Prop := s.pc ≤ capacity

/-- `term == none` iff `run == RUNNING` (spec/10_state.md R28). -/
def State.TermMatchesRun (s : State) : Prop := s.term = none ↔ s.run = .running

/-- Memory is in its canonical form (notes/assumptions/6.md). -/
def State.MemCanonical (s : State) : Prop := s.mem.wf = true

/-- Every register, every memory word and every word output lies in WMIN..WMAX (spec/00_scope.md R6). -/
structure State.WordsInRange (s : State) : Prop where
  ir     : inWord s.params.wordBits s.ir = true
  acc    : inWord s.params.wordBits s.acc = true
  auxA   : inWord s.params.wordBits s.auxA = true
  auxB   : inWord s.params.wordBits s.auxB = true
  mem    : ∀ a, a < capacity → inWord s.params.wordBits (s.mem.read a) = true
  output : ∀ v ∈ s.output, inWord s.params.wordBits v = true

/-- The invariant of the machine: every part above, for a WORD_BITS the spec admits (R9). -/
structure State.Inv (s : State) : Prop where
  params : s.params.wf = true
  pc     : s.PcInRange
  term   : s.TermMatchesRun
  mem    : s.MemCanonical
  words  : s.WordsInRange

/-- `t` is reached from `s` by some number of completed steps. -/
inductive Reaches (s : State) : State → Prop
  | refl : Reaches s s
  | tail {t u : State} : Reaches s t → step t = .next u → Reaches s u

/-- A safe run from `s`: no step of it is the model-only fault (spec/60_exceptions.md R166: "A claim about a program
must show that no reachable step raises Undefined"). -/
def Safe (s : State) : Prop := ∀ t, Reaches s t → ∀ f, step t ≠ .fault f

/-- A final state: HALTED, with a record (spec/70_reset_and_hazards.md R183). -/
def State.Final (s : State) : Prop := s.run = .halted ∧ ∃ r, s.term = some r

end Sys2Proof.Machine
end

