-- ==== Sys2Proof/Certificates/Slice0/Obligations.lean ====
section
/-! DEFINITION. The statements for the provers. OBLIGATIONS.json gives each its title, rules and tier. -/

open Sys2Proof Sys2Proof.Machine

/-- Decoding the word of a well-formed instruction gives it back (30_encoding.md R61, R66; 30_encoding.md R71). -/
def Obligations.DecodeOfEncodeReturnsTheInstruction : Prop :=
  ∀ i : Instr, i.wellFormed = true → decode (encode i) = some i

/-- A word that decodes is the word of the instruction it decodes to (30_encoding.md R61, R64, R65, R66, R68;
92_eei_decisions.md D6). That no word below 0 or above 9999 decodes is the spec's own choice (R64, D6), a DESIGN
CHOICE in notes/assumptions/15.md. -/
def Obligations.EncodeOfDecodeReturnsTheWord : Prop :=
  ∀ (w : Int) (i : Instr), decode w = some i →
    encode i = w ∧ i.wellFormed = true ∧ 0 ≤ w ∧ w ≤ 9999 ∧ unitOfOpcode (w.toNat / 100) = some i.unit

/-- Exactly the illegal words are invalid, and executing one halts with INVALID_OPCODE (30_encoding.md R64, R67;
92_eei_decisions.md D6). That a word below 0 or above 9999 is illegal is the spec's own choice (R64, D6), a
DESIGN CHOICE in notes/assumptions/15.md. -/
def Obligations.IllegalWordsHaltWithInvalidOpcode : Prop :=
  (∀ w : Int, decode w = none ↔ (w < 0 ∨ 9999 < w ∨ illegalOpcode (w.toNat / 100) = true)) ∧
  (∀ s : State, s.run = .running → checkBound s.pc = true →
    (s.mem.read s.pc < 0 ∨ 9999 < s.mem.read s.pc ∨ illegalOpcode ((s.mem.read s.pc).toNat / 100) = true) →
    step s = .next { s with
      ir := s.mem.read s.pc, run := .halted, term := some ⟨s.params.codes.invalidOpcode, .invalidOpcode⟩ })

/-- The two high digits are the opcode and the two low digits the operand (R61). -/
def Obligations.DecimalDigitsGiveOpcodeAndOperand : Prop :=
  (∀ d3 d2 d1 d0 : Nat, d3 < 10 → d2 < 10 → d1 < 10 → d0 < 10 →
    decodeFields ((1000 * d3 + 100 * d2 + 10 * d1 + d0 : Nat) : Int) = some (d3 * 10 + d2, d1 * 10 + d0)) ∧
  (∀ i : Instr, encode i = ((i.opcode * 100 + i.operand : Nat) : Int))

/-- The words of every row of the opcode map decode to its instruction (30_encoding.md R66; 95_test_vectors.md T2,
T3, T4). -/
def Obligations.WordsOfTheOpcodeMapDecode : Prop :=
  (∀ n : Nat, n ≤ 99 →
    decode n = some (.nop n) ∧ decode (1000 + n) = some (.input n) ∧
    decode (1200 + n) = some (.output n) ∧ decode (2000 + n) = some (.load n) ∧
    decode (2200 + n) = some (.store n) ∧ decode (3000 + n) = some (.add n) ∧
    decode (3200 + n) = some (.sub n) ∧ decode (3400 + n) = some (.mul n) ∧
    decode (3600 + n) = some (.div n) ∧ decode (3800 + n) = some (.mod n) ∧
    decode (4000 + n) = some (.jmp n) ∧ decode (4200 + n) = some (.jz n) ∧
    decode (4400 + n) = some (.halt n) ∧ decode (5000 + n) = some (.setA n) ∧
    decode (5200 + n) = some (.setB n) ∧ decode (5400 + n) = some (.flat n) ∧
    decode (6000 + n) = some (.and n) ∧ decode (6200 + n) = some (.or n) ∧
    decode (6400 + n) = some (.xor n) ∧ decode (6600 + n) = some (.not n)) ∧
  decode 20 = some (.nop 20) ∧ decode 1234 = some (.output 34) ∧ decode 4005 = some (.jmp 5)

/-- NOP completes on every state and operand and changes pc alone (R86). -/
def Obligations.NopOnlyAdvancesPc : Prop :=
  (∀ (n : Nat) (s : State), exec (.nop n) s = .next { s with pc := s.pc + 1 }) ∧
  (∀ n : Nat, n ≤ 99 → decode (n : Int) = some (.nop n)) ∧
  (∀ (n : Nat) (s t : State), s.run = .running → s.pc = 127 → exec (.nop n) s = .next t →
    step t = .next { t with run := .halted, term := some ⟨s.params.codes.endOfProgram, .endOfProgram⟩ })

/-- JMP sets pc to its operand after the bounds check (40_control.md R87, R90; 92_eei_decisions.md D17, D21). R90
speaks of both jump opcodes. That a JZ checks its target when it does not jump (D17), and that a jump is its net
effect alone (D21), are the spec's own choices, a DESIGN CHOICE in notes/assumptions/21.md. -/
def Obligations.JmpSetsPcToTheOperand : Prop :=
  ∀ (n : Nat) (s : State),
    (checkBound n = true → exec (.jmp n) s = .next { s with pc := n }) ∧
    (checkBound n = false →
      exec (.jmp n) s = .next { s with run := .halted, term := some ⟨s.params.codes.outOfMemory, .outOfMemory⟩ }) ∧
    (checkBound n = false → exec (.jz n) s = .next { s with run := .halted, term := some ⟨s.params.codes.outOfMemory, .outOfMemory⟩ }) ∧
    (s.run = .running → s.pc = n → checkBound n = true → decode (s.mem.read n) = some (.jmp n) →
      step s = .next { s with ir := s.mem.read n })

/-- JZ jumps when acc is zero and falls through otherwise (40_control.md R88; 92_eei_decisions.md D17, D21). That
the target is checked whether or not the branch is taken (D17), and that a jump is its net effect alone (D21),
are the spec's own choices, a DESIGN CHOICE in notes/assumptions/21.md. -/
def Obligations.JzJumpsExactlyWhenAccIsZero : Prop :=
  ∀ (n : Nat) (s : State),
    (checkBound n = true → s.acc = 0 → exec (.jz n) s = .next { s with pc := n }) ∧
    (checkBound n = true → s.acc ≠ 0 → exec (.jz n) s = .next { s with pc := s.pc + 1 }) ∧
    (checkBound n = false →
      exec (.jz n) s = .next { s with run := .halted, term := some ⟨s.params.codes.outOfMemory, .outOfMemory⟩ }) ∧
    (s.run = .running → s.pc = n → checkBound n = true → s.acc = 0 → decode (s.mem.read n) = some (.jz n) →
      step s = .next { s with ir := s.mem.read n })

/-- HALT halts with its operand as the exit code (R89; R155). -/
def Obligations.HaltRecordsItsOperand : Prop :=
  (∀ (n : Nat) (s : State),
    exec (.halt n) s = .next { s with run := .halted, term := some ⟨BitVec.ofNat 16 n, .explicitHalt⟩ }) ∧
  (∀ n : Nat, n ≤ 99 → (BitVec.ofNat 16 n).toInt = n) ∧
  (∀ (s t : State) (r : TerminationRecord), s.run = .running → s.term = none → step s = .next t → t.term = some r →
    (r.signal = .explicitHalt ∧ ∃ n, decode (s.mem.read s.pc) = some (.halt n) ∧ r.exitCode = BitVec.ofNat 16 n) ∨
    (r.signal ≠ .explicitHalt ∧ r.exitCode = s.params.codes.code r.signal))

/-- LOAD copies the addressed word to acc (R104). -/
def Obligations.LoadCopiesTheWordToAcc : Prop :=
  (∀ (n : Nat) (s : State),
    (checkBound n = true → exec (.load n) s = .next { s with acc := s.mem.read n, pc := s.pc + 1 }) ∧
    (checkBound n = false →
      exec (.load n) s = .next { s with run := .halted, term := some ⟨s.params.codes.outOfMemory, .outOfMemory⟩ })) ∧
  (∀ (p : Params) (memInit : Vector Int capacity) (answers : List InputAnswer) (n : Nat) (h : n < capacity),
    exec (.load n) (State.construct p memInit answers) =
      .next { State.construct p memInit answers with acc := memInit[n], pc := 1 })

/-- STORE writes acc to the addressed word and to no other (41_arithmetic.md R105; 20_memory.md R51). -/
def Obligations.StoreWritesAccToMemory : Prop :=
  ∀ (n : Nat) (s : State),
    (checkBound n = true →
      exec (.store n) s = .next { s with mem := s.mem.write n s.acc, pc := s.pc + 1 } ∧
      (s.mem.write n s.acc).read n = s.acc ∧
      ∀ a : Nat, a ≠ n → (s.mem.write n s.acc).read a = s.mem.read a) ∧
    (checkBound n = false →
      exec (.store n) s = .next { s with run := .halted, term := some ⟨s.params.codes.outOfMemory, .outOfMemory⟩ })

/-- ADD writes the exact sum to acc when it is a Word, else follows OVERFLOW_POLICY (R106). -/
def Obligations.AddWritesTheExactSum : Prop :=
  (∀ (n : Nat) (s : State),
    (checkBound n = true → inWord s.params.wordBits (s.acc + s.mem.read n) = true →
      exec (.add n) s = .next { s with acc := s.acc + s.mem.read n, pc := s.pc + 1 }) ∧
    (checkBound n = true → inWord s.params.wordBits (s.acc + s.mem.read n) = false →
      s.params.overflow = .wrap →
      exec (.add n) s = .next { s with acc := wrap s.params.wordBits (s.acc + s.mem.read n), pc := s.pc + 1 }) ∧
    (checkBound n = true → inWord s.params.wordBits (s.acc + s.mem.read n) = false →
      s.params.overflow = .undefined → exec (.add n) s = .fault (.undefinedOverflow s)) ∧
    (checkBound n = false →
      exec (.add n) s = .next { s with run := .halted, term := some ⟨s.params.codes.outOfMemory, .outOfMemory⟩ })) ∧
  (∀ bits : Nat, 16 ≤ bits → inWord bits (wmax bits + 1) = false ∧ inWord bits (wmin bits + -1) = false ∧
    wrap bits (wmax bits + 1) = wmin bits ∧ wrap bits (wmin bits + -1) = wmax bits)

/-- SUB writes the exact difference to acc when it is a Word, else follows OVERFLOW_POLICY (R107). -/
def Obligations.SubWritesTheExactDifference : Prop :=
  (∀ (n : Nat) (s : State),
    (checkBound n = true → inWord s.params.wordBits (s.acc - s.mem.read n) = true →
      exec (.sub n) s = .next { s with acc := s.acc - s.mem.read n, pc := s.pc + 1 }) ∧
    (checkBound n = true → inWord s.params.wordBits (s.acc - s.mem.read n) = false →
      s.params.overflow = .wrap →
      exec (.sub n) s = .next { s with acc := wrap s.params.wordBits (s.acc - s.mem.read n), pc := s.pc + 1 }) ∧
    (checkBound n = true → inWord s.params.wordBits (s.acc - s.mem.read n) = false →
      s.params.overflow = .undefined → exec (.sub n) s = .fault (.undefinedOverflow s)) ∧
    (checkBound n = false →
      exec (.sub n) s = .next { s with run := .halted, term := some ⟨s.params.codes.outOfMemory, .outOfMemory⟩ })) ∧
  (∀ bits : Nat, 16 ≤ bits → inWord bits (0 - wmin bits) = false)

/-- MUL writes the exact product to acc when it is a Word, else follows OVERFLOW_POLICY (R108). -/
def Obligations.MulWritesTheExactProduct : Prop :=
  (∀ (n : Nat) (s : State),
    (checkBound n = true → inWord s.params.wordBits (s.acc * s.mem.read n) = true →
      exec (.mul n) s = .next { s with acc := s.acc * s.mem.read n, pc := s.pc + 1 }) ∧
    (checkBound n = true → inWord s.params.wordBits (s.acc * s.mem.read n) = false →
      s.params.overflow = .wrap →
      exec (.mul n) s = .next { s with acc := wrap s.params.wordBits (s.acc * s.mem.read n), pc := s.pc + 1 }) ∧
    (checkBound n = true → inWord s.params.wordBits (s.acc * s.mem.read n) = false →
      s.params.overflow = .undefined → exec (.mul n) s = .fault (.undefinedOverflow s)) ∧
    (checkBound n = false →
      exec (.mul n) s = .next { s with run := .halted, term := some ⟨s.params.codes.outOfMemory, .outOfMemory⟩ })) ∧
  (∀ bits : Nat, 16 ≤ bits → inWord bits (wmin bits * -1) = false) ∧
  inWord 32 (65536 * 65536) = false ∧ wrap 32 (65536 * 65536) = 0

/-- DIV writes the quotient rounded toward zero, and overflows only at WMIN / -1 (41_arithmetic.md R101, R102, R103,
R109; 92_eei_decisions.md D3). That the quotient rounds toward zero and that acc is the dividend is the spec's
own choice (D3), a DESIGN CHOICE in notes/assumptions/16.md. -/
def Obligations.DivWritesTheQuotientTowardZero : Prop :=
  (∀ (n : Nat) (s : State),
    (checkBound n = true → s.mem.read n ≠ 0 → inWord s.params.wordBits (quot s.acc (s.mem.read n)) = true →
      exec (.div n) s = .next { s with acc := quot s.acc (s.mem.read n), pc := s.pc + 1 }) ∧
    (checkBound n = true → s.mem.read n ≠ 0 → inWord s.params.wordBits (quot s.acc (s.mem.read n)) = false →
      s.params.overflow = .wrap →
      exec (.div n) s =
        .next { s with acc := wrap s.params.wordBits (quot s.acc (s.mem.read n)), pc := s.pc + 1 }) ∧
    (checkBound n = true → s.mem.read n ≠ 0 → inWord s.params.wordBits (quot s.acc (s.mem.read n)) = false →
      s.params.overflow = .undefined → exec (.div n) s = .fault (.undefinedOverflow s)) ∧
    (checkBound n = true → s.mem.read n = 0 → s.params.divZero = .other →
      exec (.div n) s = .next { s with run := .halted, term := some ⟨s.params.codes.other, .other⟩ }) ∧
    (checkBound n = true → s.mem.read n = 0 → s.params.divZero = .undefined →
      exec (.div n) s = .fault (.undefinedDivideByZero s)) ∧
    (checkBound n = false →
      exec (.div n) s = .next { s with run := .halted, term := some ⟨s.params.codes.outOfMemory, .outOfMemory⟩ })) ∧
  (∀ (bits : Nat) (x y : Int), 16 ≤ bits → inWord bits x = true → inWord bits y = true → y ≠ 0 →
    (inWord bits (quot x y) = false ↔ x = wmin bits ∧ y = -1))

/-- MOD writes the remainder with the dividend's sign (41_arithmetic.md R101, R102, R103, R110; 92_eei_decisions.md
D3). The remainder's sign and the operand order are the spec's own choice (D3), a DESIGN CHOICE in
notes/assumptions/16.md. -/
def Obligations.ModWritesTheRemainder : Prop :=
  ∀ (n : Nat) (s : State),
    (checkBound n = true → s.mem.read n ≠ 0 → ¬ (s.acc = wmin s.params.wordBits ∧ s.mem.read n = -1) →
      exec (.mod n) s = .next { s with acc := rem s.acc (s.mem.read n), pc := s.pc + 1 }) ∧
    (checkBound n = true → s.acc = wmin s.params.wordBits → s.mem.read n = -1 → s.params.overflow = .wrap →
      exec (.mod n) s = .next { s with acc := 0, pc := s.pc + 1 }) ∧
    (checkBound n = true → s.acc = wmin s.params.wordBits → s.mem.read n = -1 → s.params.overflow = .undefined →
      exec (.mod n) s = .fault (.undefinedOverflow s)) ∧
    (checkBound n = true → s.mem.read n = 0 → s.params.divZero = .other →
      exec (.mod n) s = .next { s with run := .halted, term := some ⟨s.params.codes.other, .other⟩ }) ∧
    (checkBound n = true → s.mem.read n = 0 → s.params.divZero = .undefined →
      exec (.mod n) s = .fault (.undefinedDivideByZero s)) ∧
    (checkBound n = false →
      exec (.mod n) s = .next { s with run := .halted, term := some ⟨s.params.codes.outOfMemory, .outOfMemory⟩ }) ∧
    rem (-7) 2 = -1 ∧ rem 7 (-2) = 1 ∧ (∀ x : Int, rem x 1 = 0)

/-- quot and rem are division rounded toward zero (41_arithmetic.md R102; 92_eei_decisions.md D3). Rounding toward
zero is the spec's own choice, from general knowledge (R102, D3), a DESIGN CHOICE in notes/assumptions/16.md. -/
def Obligations.QuotientRoundsTowardZero : Prop :=
  ∀ x y : Int, y ≠ 0 →
    rem x y = x - y * quot x y ∧
    (quot x y).natAbs = x.natAbs / y.natAbs ∧ (0 ≤ x * y → 0 ≤ quot x y) ∧ (x * y ≤ 0 → quot x y ≤ 0) ∧
    (rem x y).natAbs < y.natAbs ∧ (rem x y = 0 ∨ (0 < rem x y ∧ 0 < x) ∨ (rem x y < 0 ∧ x < 0))

/-- The exact results of DIV and MOD at each sign combination (41_arithmetic.md R112). The rows of mixed sign rest
on the spec's own choice of rounding toward zero (D3), a DESIGN CHOICE in notes/assumptions/16.md. -/
def Obligations.DivisionTableOfR112 : Prop :=
  (quot 7 2 = 3 ∧ rem 7 2 = 1) ∧ (quot (-7) 2 = -3 ∧ rem (-7) 2 = -1) ∧ (quot 7 (-2) = -3 ∧ rem 7 (-2) = 1) ∧
  (quot (-7) (-2) = 3 ∧ rem (-7) (-2) = -1) ∧ (quot 0 5 = 0 ∧ rem 0 5 = 0) ∧ (quot 5 7 = 0 ∧ rem 5 7 = 5) ∧
  (quot (-5) 7 = 0 ∧ rem (-5) 7 = -5) ∧
  (∀ bits : Nat, 16 ≤ bits →
    quot (wmin bits) 1 = wmin bits ∧ rem (wmin bits) 1 = 0 ∧ quot (wmax bits) (-1) = -wmax bits ∧
    rem (wmax bits) (-1) = 0 ∧ inWord bits (quot (wmin bits) (-1)) = false ∧
    wrap bits (quot (wmin bits) (-1)) = wmin bits)

/-- SETA and SETB copy the addressed word to auxA and to auxB (R121; R122). -/
def Obligations.SetRegisterCopiesTheWord : Prop :=
  ∀ (n : Nat) (s : State),
    (checkBound n = true → exec (.setA n) s = .next { s with auxA := s.mem.read n, pc := s.pc + 1 }) ∧
    (checkBound n = true → exec (.setB n) s = .next { s with auxB := s.mem.read n, pc := s.pc + 1 }) ∧
    (checkBound n = false →
      exec (.setA n) s = .next { s with run := .halted, term := some ⟨s.params.codes.outOfMemory, .outOfMemory⟩ }) ∧
    (checkBound n = false →
      exec (.setB n) s = .next { s with run := .halted, term := some ⟨s.params.codes.outOfMemory, .outOfMemory⟩ })

/-- FLAT reduces auxA and auxB to their bit 0 (R123). -/
def Obligations.FlatKeepsBitZeroOfBothRegisters : Prop :=
  (∀ (n : Nat) (s : State), exec (.flat n) s =
    .next { s with
      auxA := bitAnd s.params.wordBits s.auxA 1, auxB := bitAnd s.params.wordBits s.auxB 1, pc := s.pc + 1 }) ∧
  (∀ (bits : Nat) (x : Int), 16 ≤ bits → bitAnd bits x 1 = x % 2 ∧ (bitAnd bits x 1 = 0 ∨ bitAnd bits x 1 = 1) ∧
    bitAnd bits (bitAnd bits x 1) 1 = bitAnd bits x 1)

/-- AND, OR and XOR write auxA op auxB to the addressed word and to no other (42_extended.md R124, R125, R126). -/
def Obligations.BitwiseResultGoesToMemory : Prop :=
  ∀ (n : Nat) (s : State),
    (checkBound n = true →
      exec (.and n) s = .next { s with mem := s.mem.write n (bitAnd s.params.wordBits s.auxA s.auxB), pc := s.pc + 1 }) ∧
    (checkBound n = true →
      exec (.or n) s = .next { s with mem := s.mem.write n (bitOr s.params.wordBits s.auxA s.auxB), pc := s.pc + 1 }) ∧
    (checkBound n = true →
      exec (.xor n) s = .next { s with mem := s.mem.write n (bitXor s.params.wordBits s.auxA s.auxB), pc := s.pc + 1 }) ∧
    (checkBound n = false → ∀ i ∈ [Instr.and n, .or n, .xor n],
      exec i s = .next { s with run := .halted, term := some ⟨s.params.codes.outOfMemory, .outOfMemory⟩ }) ∧
    ∀ v : Int, (s.mem.write n v).read n = v ∧ ∀ a : Nat, a ≠ n → (s.mem.write n v).read a = s.mem.read a

/-- NOT writes the complement of auxA to memory and does not read auxB (R127). -/
def Obligations.NotWritesTheComplementOfAuxA : Prop :=
  (∀ (n : Nat) (s : State),
    (checkBound n = true →
      (∀ b : Int, exec (.not n) { s with auxB := b } =
        .next { s with auxB := b, mem := s.mem.write n (bitNot s.params.wordBits s.auxA), pc := s.pc + 1 }) ∧
      (s.mem.write n (bitNot s.params.wordBits s.auxA)).read n = bitNot s.params.wordBits s.auxA ∧
      ∀ a : Nat, a ≠ n → (s.mem.write n (bitNot s.params.wordBits s.auxA)).read a = s.mem.read a) ∧
    (checkBound n = false →
      exec (.not n) s = .next { s with run := .halted, term := some ⟨s.params.codes.outOfMemory, .outOfMemory⟩ })) ∧
  (∀ (bits : Nat) (x : Int), 16 ≤ bits → inWord bits x = true → bitNot bits x = -x - 1)

/-- &, | and ^ act on each bit of the two's complement representation (00_scope.md R14). -/
def Obligations.BitwiseOperationsActBitByBit : Prop :=
  ∀ (bits : Nat) (a b : Int) (i : Nat), 16 ≤ bits → i < bits →
    (toBits bits (bitAnd bits a b)).getLsbD i = ((toBits bits a).getLsbD i && (toBits bits b).getLsbD i) ∧
    (toBits bits (bitOr bits a b)).getLsbD i = ((toBits bits a).getLsbD i || (toBits bits b).getLsbD i) ∧
    (toBits bits (bitXor bits a b)).getLsbD i = ((toBits bits a).getLsbD i != (toBits bits b).getLsbD i) ∧
    (toBits bits (bitNot bits a)).getLsbD i = !(toBits bits a).getLsbD i

/-- wrap(v) is the one Word congruent to v modulo 2^WORD_BITS (00_scope.md R12). -/
def Obligations.WrapIsTheOnlyCongruentWord : Prop :=
  ∀ (bits : Nat) (v : Int), 16 ≤ bits →
    inWord bits (wrap bits v) = true ∧ (2 ^ bits : Int) ∣ v - wrap bits v ∧
    ∀ u : Int, inWord bits u = true → (2 ^ bits : Int) ∣ v - u → u = wrap bits v

/-- IN stores the host's value, halts with OTHER on an error, and is held with no answer (43_io.md R141, R142, R143,
R146, R147; 92_eei_decisions.md D8). That an error is fatal is the spec's own choice (R143, D8), a DESIGN CHOICE
in notes/assumptions/27.md. `input`, with the empty list for no answer yet, is the model's own field for the
input oracle (notes/assumptions/8.md); that an error answer is consumed is read from R146 (DEDUCED,
notes/assumptions/9.md). -/
def Obligations.InStoresTheAnswerOrHalts : Prop :=
  ∀ (n : Nat) (s : State) (rest : List InputAnswer),
    (∀ v : Int, checkBound n = true → s.input = .value v :: rest → inWord s.params.wordBits v = true →
      exec (.input n) s = .next { s with mem := s.mem.write n v, input := rest, pc := s.pc + 1 } ∧
        (s.mem.write n v).read n = v ∧ ∀ a : Nat, a ≠ n → (s.mem.write n v).read a = s.mem.read a) ∧
    (∀ a : InputAnswer, checkBound n = true → s.input = a :: rest →
      (a = .nonNumeric ∨ a = .endOfInput ∨ ∃ v, a = .value v ∧ inWord s.params.wordBits v = false) →
      exec (.input n) s = .next { s with
        input := rest, run := .halted, term := some ⟨s.params.codes.other, .other⟩ }) ∧
    (checkBound n = true → s.input = [] → exec (.input n) s = .next s) ∧
    (checkBound n = false →
      exec (.input n) s = .next { s with run := .halted, term := some ⟨s.params.codes.outOfMemory, .outOfMemory⟩ })

/-- OUT appends the addressed word to the output and changes nothing else (43_io.md R144, R145; 92_eei_decisions.md
D16). That the output port never fails, so that OUT always completes, is the spec's own choice (D16), a DESIGN
CHOICE in notes/assumptions/22.md. `output`, empty at construction, is the model's own field for the console's
value sequence (DEDUCED, notes/assumptions/10.md). -/
def Obligations.OutSendsTheWord : Prop :=
  (∀ (n : Nat) (s : State),
    (checkBound n = true → exec (.output n) s = .next { s with output := s.output ++ [s.mem.read n], pc := s.pc + 1 }) ∧
    (checkBound n = false →
      exec (.output n) s = .next { s with run := .halted, term := some ⟨s.params.codes.outOfMemory, .outOfMemory⟩ })) ∧
  (∀ (p : Params) (memInit : Vector Int capacity) (answers : List InputAnswer) (n : Nat) (h : n < capacity),
    exec (.output n) (State.construct p memInit answers) =
      .next { State.construct p memInit answers with output := [memInit[n]], pc := 1 })

/-- An instruction that stores nothing leaves every word of memory, and what is not its destination, unchanged
(10_state.md R33; 10_state.md R26; 20_memory.md R43). -/
def Obligations.FrameOfFormsThatStoreNothing : Prop :=
  ∀ (n : Nat) (s t : State) (i : Instr),
    i ∈ [Instr.nop n, .output n, .load n, .add n, .sub n, .mul n, .div n, .mod n, .jmp n, .jz n, .halt n,
      .setA n, .setB n, .flat n] →
    exec i s = .next t →
    (∀ a : Nat, t.mem.read a = s.mem.read a) ∧ t.mem.draw = s.mem.draw ∧
    t.ir = s.ir ∧ t.params = s.params ∧ t.input = s.input ∧
    (i ∉ [Instr.load n, .add n, .sub n, .mul n, .div n, .mod n] → t.acc = s.acc) ∧
    (i ∉ [Instr.setA n, .flat n] → t.auxA = s.auxA) ∧
    (i ∉ [Instr.setB n, .flat n] → t.auxB = s.auxB) ∧
    (i ≠ Instr.output n → t.output = s.output)

/-- An instruction that stores writes its operand's word only, and no register (10_state.md R33; 20_memory.md R48;
43_io.md R142). -/
def Obligations.FrameOfStoringForms : Prop :=
  ∀ (n : Nat) (s t : State) (i : Instr),
    i ∈ [Instr.store n, .and n, .or n, .xor n, .not n, .input n] → exec i s = .next t →
    (∀ a : Nat, a ≠ n → t.mem.read a = s.mem.read a) ∧ t.mem.draw = s.mem.draw ∧
    t.acc = s.acc ∧ t.auxA = s.auxA ∧ t.auxB = s.auxB ∧ t.ir = s.ir ∧ t.params = s.params ∧ t.output = s.output ∧
    (i ≠ Instr.input n → t.input = s.input)

/-- A step changes a register, memory or the control state only as the tables allow (10_state.md R33; 10_state.md
R21, R22, R27, R28; 40_control.md R84, R85, R87, R88). That a held step changes nothing, and that no answer yet
is an empty list, is how the model holds the input oracle (notes/assumptions/8.md). -/
def Obligations.StepsChangeOnlyWhatR33Lists : Prop :=
  ∀ s t : State, step s = .next t →
    (t.acc ≠ s.acc → ∃ n, ∃ i ∈ [Instr.load n, .add n, .sub n, .mul n, .div n, .mod n],
      decode (s.mem.read s.pc) = some i) ∧
    (t.auxA ≠ s.auxA → ∃ n, ∃ i ∈ [Instr.setA n, .flat n], decode (s.mem.read s.pc) = some i) ∧
    (t.auxB ≠ s.auxB → ∃ n, ∃ i ∈ [Instr.setB n, .flat n], decode (s.mem.read s.pc) = some i) ∧
    (t.mem ≠ s.mem → ∃ n, ∃ i ∈ [Instr.input n, .store n, .and n, .or n, .xor n, .not n],
      decode (s.mem.read s.pc) = some i) ∧
    (∀ a : Nat, t.mem.read a ≠ s.mem.read a →
      ∃ i ∈ [Instr.input a, .store a, .and a, .or a, .xor a, .not a], decode (s.mem.read s.pc) = some i) ∧
    (t.output ≠ s.output → ∃ n, decode (s.mem.read s.pc) = some (.output n)) ∧
    (t.ir = s.ir ∨ t.ir = s.mem.read s.pc) ∧ t.params = s.params ∧ t.mem.draw = s.mem.draw ∧
    (s.run = .halted → t.run = .halted ∧ t.term = s.term) ∧
    (t.run = .halted ∨ isHeld s = true → t.pc = s.pc) ∧
    (t.run = .running → isHeld s = false →
      (∃ n, (decode (s.mem.read s.pc) = some (.jmp n) ∨ (decode (s.mem.read s.pc) = some (.jz n) ∧ s.acc = 0)) ∧
        t.pc = n) ∨
      ((∀ n, decode (s.mem.read s.pc) ≠ some (.jmp n)) ∧
        (∀ n, decode (s.mem.read s.pc) = some (.jz n) → s.acc ≠ 0) ∧ t.pc = s.pc + 1))

/-- Every unit checks its address first and on failure halts with nothing written (20_memory.md R40, R41;
40_control.md R90; 60_exceptions.md R151, R154; 92_eei_decisions.md D17). That a JZ which would not jump checks
its target too is the spec's own choice (D17), a DESIGN CHOICE in notes/assumptions/21.md. -/
def Obligations.OutOfBoundsTargetTouchesNothing : Prop :=
  (∀ i : Int, checkBound i = true ↔ 0 ≤ i ∧ i < 128) ∧
  (∀ (n : Nat) (s : State) (i : Instr),
    i ∈ [Instr.input n, .output n, .load n, .store n, .add n, .sub n, .mul n, .div n, .mod n, .setA n, .setB n,
      .and n, .or n, .xor n, .not n, .jmp n, .jz n] →
    checkBound n = false →
    exec i s = .next { s with run := .halted, term := some ⟨s.params.codes.outOfMemory, .outOfMemory⟩ })

/-- A step of a running machine executes the instruction its pc fetches, and its status is the outcome's
(40_control.md R82, R83, R85). -/
def Obligations.StepRunsTheDecodedInstruction : Prop :=
  (∀ (s : State) (i : Instr), s.run = .running → checkBound s.pc = true → decode (s.mem.read s.pc) = some i →
    awaitsInput s i = false → step s = exec i { s with ir := s.mem.read s.pc }) ∧
  (∀ s : State, s.run = .running → isHeld s = false →
    (∀ t, step s = .next t → t.run = .running → stepStatus s = .continued) ∧
    (∀ t, step s = .next t → t.run = .halted → stepStatus s = .stopped) ∧
    (∀ f, step s = .fault f → stepStatus s = .fault))

/-- The word placed for the fetch is the one the next step runs (40_control.md R83; 70_reset_and_hazards.md R172).
That the word is placed where pc fetches, and how its bits are numbered, is the model's choice
(notes/assumptions/17.md, 20.md). -/
def Obligations.PlacedWordIsTheNextInstruction : Prop :=
  ∀ (s : State) (nbits w : Nat) (i : Instr), s.params.wordBits = 32 → s.run = .running → checkBound s.pc = true →
    decodeTableWord nbits w = some i → awaitsInput s i = false →
    step (s.withFetchWord nbits w) = exec i { s.withFetchWord nbits w with ir := wordOfBits 32 nbits w } ∧
    ∀ a : Nat, a ≠ s.pc → (s.withFetchWord nbits w).mem.read a = s.mem.read a

/-- Nothing that follows a halt changes the machine (R81). -/
def Obligations.HaltedMachineStaysInert : Prop :=
  (∀ s : State, s.run = .halted → step s = .next s ∧ stepStatus s = .alreadyStopped) ∧
  (∀ s t : State, s.run = .halted → Reaches s t → t = s)

/-- A pc that fails the check ends the run with END_OF_PROGRAM and no fetch (40_control.md R82 step 1, R85;
20_memory.md R46; 60_exceptions.md R154). -/
def Obligations.PcOutOfBoundsEndsTheProgram : Prop :=
  ∀ s : State, s.run = .running → checkBound s.pc = false →
    step s = .next { s with run := .halted, term := some ⟨s.params.codes.endOfProgram, .endOfProgram⟩ } ∧
    stepStatus s = .stopped

/-- A step that waits for input changes no state and reports HELD (43_io.md R147). That no answer yet is an empty
list, and that ir keeps its value while held, is the model's choice (notes/assumptions/8.md). -/
def Obligations.UnansweredInputHoldsTheStep : Prop :=
  ∀ (s : State) (n : Nat), s.run = .running → checkBound s.pc = true → decode (s.mem.read s.pc) = some (.input n) →
    s.input = [] → step s = .next s ∧ stepStatus s = .held

/-- Construction gives the reset values, and the invariant holds there (10_state.md R32; 70_reset_and_hazards.md
R170, R171). The last clause rests on the model's choices of parameters and draw at State.reset
(notes/assumptions/1.md, 2.md, 3.md, 5.md), and the canonical form in Inv is the model's
(notes/assumptions/6.md). -/
def Obligations.ConstructedMachineSatisfiesTheInvariant : Prop :=
  (∀ (p : Params) (memInit : Vector Int capacity) (answers : List InputAnswer),
    let s := State.construct p memInit answers
    s.pc = 0 ∧ s.ir = 0 ∧ s.acc = 0 ∧ s.auxA = 0 ∧ s.auxB = 0 ∧ s.run = .running ∧ s.term = none ∧
    (∀ (a : Nat) (h : a < capacity), s.mem.read a = memInit[a]) ∧
    (p.wf = true → (∀ (a : Nat) (h : a < capacity), inWord p.wordBits memInit[a] = true) → s.Inv)) ∧
  State.reset.Inv

/-- pc never leaves 0..128 (10_state.md R21). -/
def Obligations.StepKeepsPcInRange : Prop :=
  ∀ s t : State, s.PcInRange → step s = .next t → t.PcInRange

/-- term is none exactly while the machine is running (10_state.md R28). -/
def Obligations.StepKeepsTermMatchingRun : Prop :=
  ∀ s t : State, s.TermMatchesRun → step s = .next t → t.TermMatchesRun

/-- Every step keeps memory in its canonical form (20_memory.md R42). The canonical form is the model's choice
(notes/assumptions/6.md). -/
def Obligations.StepKeepsMemoryCanonical : Prop :=
  ∀ s t : State, s.MemCanonical → step s = .next t → t.MemCanonical

/-- Every step keeps the machine's invariant: widths, pc, term, memory, and every word in WMIN..WMAX (00_scope.md
R6; 10_state.md R20, R21, R28; 42_extended.md R129; 41_arithmetic.md R101). The canonical form in Inv is the
model's choice (notes/assumptions/6.md). -/
def Obligations.StepKeepsTheInvariant : Prop :=
  ∀ s t : State, s.Inv → step s = .next t → t.Inv

/-- A loaded machine meets the invariant (70_reset_and_hazards.md R172, R174, R176; 10_state.md R21). The canonical
form in Inv is the model's choice (notes/assumptions/6.md). -/
def Obligations.LoadKeepsTheInvariant : Prop :=
  ∀ (s t : State) (source : List Token), s.Inv → s.load source = some t → t.Inv

/-- A halting step changes ir, run and term and nothing else (60_exceptions.md R151, R157; 43_io.md R143, R146).
That an input error consumes its answer is read from R146 (notes/assumptions/9.md). -/
def Obligations.EveryHaltIsPrecise : Prop :=
  ∀ s t : State, s.run = .running → step s = .next t → t.run = .halted →
    t = { s with ir := t.ir, run := .halted, term := t.term, input := t.input } ∧
    (t.ir = s.ir ∨ t.ir = s.mem.read s.pc) ∧
    (t.input = s.input ∨
      ∃ n a, checkBound s.pc = true ∧ decode (s.mem.read s.pc) = some (.input n) ∧ s.input = a :: t.input ∧
        answerWord s.params.wordBits a = none)

/-- A run halts with a signal only for the cause the table gives, and records its code (60_exceptions.md R154, R155,
R156; 20_memory.md R45). That a zero divisor halts with OTHER under that policy (D4), that a word outside
0..9999 is illegal (D6) and that an input error is fatal (D8) are the spec's own choices, DESIGN CHOICEs in
notes/assumptions/3.md, 15.md and 27.md. -/
def Obligations.EverySignalHasItsCause : Prop :=
  ∀ s t : State, s.run = .running → step s = .next t → t.run = .halted →
    (∃ n, checkBound s.pc = true ∧ decode (s.mem.read s.pc) = some (.halt n) ∧
      t.term = some ⟨BitVec.ofNat 16 n, .explicitHalt⟩) ∨
    (checkBound s.pc = false ∧ t.term = some ⟨s.params.codes.endOfProgram, .endOfProgram⟩) ∨
    (checkBound s.pc = true ∧ decode (s.mem.read s.pc) = none ∧
      t.term = some ⟨s.params.codes.invalidOpcode, .invalidOpcode⟩) ∨
    (checkBound s.pc = true ∧ t.term = some ⟨s.params.codes.other, .other⟩ ∧
      ((∃ n, ∃ i ∈ [Instr.div n, .mod n], decode (s.mem.read s.pc) = some i ∧ s.mem.read n = 0 ∧
          s.params.divZero = .other) ∨
       (∃ n a rest, decode (s.mem.read s.pc) = some (.input n) ∧ s.input = a :: rest ∧
          answerWord s.params.wordBits a = none)))

/-- Every decoded operand is in bounds, so OUT_OF_MEMORY cannot occur (20_memory.md R45). -/
def Obligations.NoStepRunsOutOfMemory : Prop :=
  (∀ (w : Int) (i : Instr), decode w = some i → i.operand ≤ 99 ∧ checkBound i.operand = true) ∧
  (∀ s t : State, s.run = .running → s.term = none → step s = .next t →
    ∀ r, t.term = some r → r.signal ≠ .outOfMemory)

/-- Under OVERFLOW_POLICY wrap and DIV_ZERO_POLICY other every step answers a next state (60_exceptions.md R166;
40_control.md R85). -/
def Obligations.NoStepFaultsUnderWrapAndOther : Prop :=
  ∀ s : State, s.params.overflow = .wrap → s.params.divZero = .other →
    (∃ t, step s = .next t) ∧ stepStatus s ≠ .fault

/-- The model fault is raised only where the spec's undefined policies say (41_arithmetic.md R101, R103;
60_exceptions.md R150, R157, R166). -/
def Obligations.FaultsComeOnlyFromTheUndefinedPolicies : Prop :=
  (∀ (s : State) (f : Fault), step s = .fault f →
    s.run = .running ∧ checkBound s.pc = true ∧
    ((f = .undefinedOverflow { s with ir := s.mem.read s.pc } ∧ s.params.overflow = .undefined ∧
      ∃ n,
        (decode (s.mem.read s.pc) = some (.add n) ∧ inWord s.params.wordBits (s.acc + s.mem.read n) = false) ∨
        (decode (s.mem.read s.pc) = some (.sub n) ∧ inWord s.params.wordBits (s.acc - s.mem.read n) = false) ∨
        (decode (s.mem.read s.pc) = some (.mul n) ∧ inWord s.params.wordBits (s.acc * s.mem.read n) = false) ∨
        (decode (s.mem.read s.pc) = some (.div n) ∧ s.mem.read n ≠ 0 ∧
          inWord s.params.wordBits (quot s.acc (s.mem.read n)) = false) ∨
        (decode (s.mem.read s.pc) = some (.mod n) ∧ s.acc = wmin s.params.wordBits ∧ s.mem.read n = -1)) ∨
     (f = .undefinedDivideByZero { s with ir := s.mem.read s.pc } ∧ s.params.divZero = .undefined ∧
      ∃ n, ∃ i ∈ [Instr.div n, .mod n], decode (s.mem.read s.pc) = some i ∧ s.mem.read n = 0))) ∧
  (∀ (s : State) (r : Refusal), step s ≠ .refused r)

/-- A read gives the last word written to its address, and the draw where none was (20_memory.md R51;
70_reset_and_hazards.md R171). -/
def Obligations.ReadGivesTheLastWrite : Prop :=
  (∀ (m : Memory) (a b : Nat) (v : Int), (m.write a v).read b = if b = a then v else m.read b) ∧
  (∀ (memInit : Vector Int capacity) (a : Nat) (h : a < capacity), Memory.read ⟨[], memInit⟩ a = memInit[a])

/-- Two canonical memories that read alike are equal (20_memory.md R42). The canonical form is the model's choice
(notes/assumptions/6.md). -/
def Obligations.CanonicalMemoriesAreEqualData : Prop :=
  ∀ m m' : Memory, m.wf = true → m'.wf = true → m.draw = m'.draw →
    (∀ a, a < capacity → m.read a = m'.read a) → m = m'

/-- No instruction reads as data, writes or jumps to addresses 100..127 (20_memory.md R44). -/
def Obligations.HighAddressesAreOnlyFetched : Prop :=
  (∀ s t : State, step s = .next t →
    (∀ a : Nat, 100 ≤ a → t.mem.read a = s.mem.read a) ∧ (t.pc = s.pc ∨ t.pc = s.pc + 1 ∨ t.pc ≤ 99)) ∧
  (∀ (s : State) (m : Memory), (∀ a : Nat, a ≤ 99 ∨ a = s.pc → m.read a = s.mem.read a) →
    (∀ t, step s = .next t → ∃ m' : Memory, step { s with mem := m } = .next { t with mem := m' } ∧
      (∀ a : Nat, a ≤ 99 → m'.read a = t.mem.read a) ∧ (∀ a : Nat, 100 ≤ a → m'.read a = m.read a)) ∧
    (∀ f, step s = .fault f → step { s with mem := m } = .fault (f.mapLeft fun u => { u with mem := m })))

/-- A STORE to the next address changes the very next instruction (20_memory.md R54; 70_reset_and_hazards.md R181). -/
def Obligations.StoredWordIsFetchedNext : Prop :=
  ∀ (s t : State) (i : Instr), s.run = .running → checkBound s.pc = true →
    decode (s.mem.read s.pc) = some (.store (s.pc + 1)) → step s = .next t →
    decode s.acc = some i → awaitsInput s i = false → step t = exec i { t with ir := s.acc }

/-- ir is diagnostic only: nothing depends on it (10_state.md R22, R29). -/
def Obligations.IrHasNoEffectOnTheMachine : Prop :=
  ∀ (s : State) (w : Int),
    (∀ t, step s = .next t → ∃ t', step { s with ir := w } = .next t' ∧ { t' with ir := t.ir } = t) ∧
    (∀ f, step s = .fault f → step { s with ir := w } = .fault f)

/-- A step makes at most one I/O transaction, in order (43_io.md R146). `input` and `output` are the model's own
fields for the two streams (notes/assumptions/8.md, 9.md, 10.md). -/
def Obligations.StepMakesAtMostOneTransaction : Prop :=
  (∀ s t : State, step s = .next t →
    (t.output = s.output ∧ t.input = s.input) ∨
    (∃ v, t.output = s.output ++ [v] ∧ t.input = s.input) ∨
    (∃ a, s.input = a :: t.input ∧ t.output = s.output)) ∧
  (∀ s t : State, Reaches s t → (∃ l, t.output = s.output ++ l) ∧ (∃ l, s.input = l ++ t.input))

/-- An answer queued behind what a step reads does not change the step (60_exceptions.md R159; 43_io.md R141, R146).
`input` is the model's own field for the input oracle (notes/assumptions/8.md). -/
def Obligations.LaterAnswersDoNotDisturbAStep : Prop :=
  ∀ (s : State) (a : InputAnswer), isHeld s = false →
    (∀ t, step s = .next t → step (s.answerInput a) = .next (t.answerInput a)) ∧
    (∀ f, step s = .fault f → step (s.answerInput a) = .fault (f.mapLeft (·.answerInput a)))

/-- JMP n at address n loops forever, and so does JZ n with acc zero (70_reset_and_hazards.md R183, R184). -/
def Obligations.SelfJumpNeverHalts : Prop :=
  ∀ s t : State, s.run = .running → s.pc ≤ 99 →
    (s.mem.read s.pc = 4000 + s.pc ∨ (s.mem.read s.pc = 4200 + s.pc ∧ s.acc = 0)) → Reaches s t →
    t = { s with ir := t.ir } ∧ t.run = .running ∧ ∃ u, step t = .next u

/-- The source's loader example loads as it says (95_test_vectors.md T11; 70_reset_and_hazards.md R173, R174, R175).
How text is split into tokens is the model's choice (notes/assumptions/18.md). -/
def Obligations.LoaderExampleOfTheSource : Prop :=
  ∀ (p : Params) (memInit : Vector Int capacity) (answers : List InputAnswer), p.wf = true →
    ∃ t, boot p memInit answers ['5', ' ', '-', '1', '0', '1', ' ', '9', ' ', '9', ' ', '-', '1', '0', '1', ' ',
        '1', '2', '0', '0', ' ', '1', '2', '0', '2'] = some t ∧
      t.pc = 3 ∧ t.mem.read 0 = 5 ∧ t.mem.read 1 = 9 ∧ t.mem.read 2 = 9 ∧ t.mem.read 3 = 1200 ∧
      t.mem.read 4 = 1202 ∧ ∀ (a : Nat) (h : a < capacity), 5 ≤ a → t.mem.read a = memInit[a]

/-- The Loader writes the words of the three segments consecutively and starts at the code (70_reset_and_hazards.md
R173, R174, R176, R177; 90_conflicts.md C3; 92_eei_decisions.md D20). That exactly 128 words fit is the spec's
own choice (R177, D20), a DESIGN CHOICE in notes/assumptions/19.md. -/
def Obligations.LoaderPlacesTheSegments : Prop :=
  ∀ (s : State) (header data code : List Int),
    (∀ v ∈ header ++ data ++ code, v ≠ sentinel ∧ inWord s.params.wordBits v = true) →
    let source := header.map .int ++ [.int sentinel] ++ data.map .int ++ [.int sentinel] ++ code.map .int
    (128 < (header ++ data ++ code).length → s.load source = none) ∧
    ((header ++ data ++ code).length ≤ 128 →
      ∃ m : Memory, s.load source = some { s with mem := m, pc := header.length + data.length } ∧
        ∀ a : Nat, m.read a = ((header ++ data ++ code)[a]?).getD (s.mem.read a))

/-- Everything after a third sentinel is ignored (70_reset_and_hazards.md R174, R175). -/
def Obligations.ThirdSentinelEndsTheLoad : Prop :=
  ∀ (s : State) (source rest : List Token), source.count (.int sentinel) = 2 →
    s.load (source ++ [.int sentinel] ++ rest) = s.load source

/-- With fewer than two sentinels the Loader leaves pc as it was (70_reset_and_hazards.md R176; 92_eei_decisions.md
D22). That such a source loads, with pc kept, is the spec's own choice (D22), a DESIGN CHOICE in
notes/assumptions/19.md. -/
def Obligations.FewerThanTwoSentinelsLeavePc : Prop :=
  (∀ (s t : State) (source : List Token), source.count (.int sentinel) < 2 → s.load source = some t →
    t.pc = s.pc) ∧
  (∀ (p : Params) (memInit : Vector Int capacity) (answers : List InputAnswer) (t : State) (source : List Token),
    source.count (.int sentinel) < 2 → (State.construct p memInit answers).load source = some t → t.pc = 0)

/-- A bad token that the Loader reaches makes the load fail (70_reset_and_hazards.md R174, R178; 92_eei_decisions.md
D19). That such a token makes the load fail is the spec's own choice (D19), a DESIGN CHOICE in
notes/assumptions/19.md. -/
def Obligations.BadTokenFailsTheLoad : Prop :=
  ∀ (s : State) (source rest : List Token) (bad : Token), source.count (.int sentinel) ≤ 2 →
    (bad = .malformed ∨ ∃ v, bad = .int v ∧ v ≠ sentinel ∧ inWord s.params.wordBits v = false) →
    s.load (source ++ [bad] ++ rest) = none
end

