-- ==== Sys2Proof/Laws/Bits.lean ====
section
/-! SUPPORT. Words and their bits: ranges of wrapping and of the bitwise operations (spec/00_scope.md R12, R14). -/

namespace Sys2Proof.Machine

theorem inWord_iff {bits : Nat} {v : Int} : inWord bits v = true ↔ wmin bits ≤ v ∧ v ≤ wmax bits := by
  simp [inWord]

/-- 2^WORD_BITS is twice the number of negative words. -/
theorem two_pow_bits {bits : Nat} (h : 1 ≤ bits) : (2 : Int) ^ bits = 2 * ((2 ^ (bits - 1) : Nat) : Int) := by
  obtain ⟨k, rfl⟩ : ∃ k, bits = k + 1 := ⟨bits - 1, by omega⟩
  simp [pow_succ, mul_comm]

/-- Zero is a Word. -/
theorem inWord_zero (bits : Nat) : inWord bits 0 = true := by
  have : (0 : Int) < ((2 ^ (bits - 1) : Nat) : Int) := by positivity
  rw [inWord_iff, wmin, wmax]; omega

/-- The signed value of a bit vector is a Word. -/
theorem toInt_inWord {bits : Nat} (h : 1 ≤ bits) (x : BitVec bits) : inWord bits x.toInt = true := by
  have h1 := BitVec.two_mul_toInt_lt (x := x)
  have h2 := BitVec.le_two_mul_toInt (x := x)
  have h3 := two_pow_bits h
  rw [inWord_iff, wmin, wmax]
  omega

/-- Wrapping is reading the low bits back. -/
theorem wrap_eq_toInt (bits : Nat) (v : Int) : wrap bits v = (toBits bits v).toInt := by
  simp [wrap, toBits, BitVec.toInt_ofInt]

/-- A wrapped value is a Word. -/
theorem wrap_inWord {bits : Nat} (h : 1 ≤ bits) (v : Int) : inWord bits (wrap bits v) = true := by
  rw [wrap_eq_toInt]; exact toInt_inWord h _

/-- Wrapping leaves a Word as it is. -/
theorem wrap_of_inWord {bits : Nat} (h : 1 ≤ bits) {v : Int} (hv : inWord bits v = true) : wrap bits v = v := by
  have h3 := two_pow_bits h
  rw [inWord_iff, wmin, wmax] at hv
  unfold wrap
  have e : (((2 ^ bits : Nat) : Int)) = 2 * ((2 ^ (bits - 1) : Nat) : Int) := by rw [← h3]; push_cast; rfl
  exact Int.bmod_eq_of_le (by omega) (by omega)

/-- Integers congruent modulo 2^WORD_BITS wrap to the same Word. -/
theorem wrap_congr {bits : Nat} {u v : Int} (h : (2 ^ bits : Int) ∣ u - v) : wrap bits u = wrap bits v :=
  Int.bmod_eq_bmod_iff_bmod_sub_eq_zero.2 (Int.bmod_eq_zero_of_dvd (by exact_mod_cast h))

theorem bitAnd_inWord {bits : Nat} (h : 1 ≤ bits) (a b : Int) : inWord bits (bitAnd bits a b) = true :=
  toInt_inWord h _

theorem bitOr_inWord {bits : Nat} (h : 1 ≤ bits) (a b : Int) : inWord bits (bitOr bits a b) = true :=
  toInt_inWord h _

theorem bitXor_inWord {bits : Nat} (h : 1 ≤ bits) (a b : Int) : inWord bits (bitXor bits a b) = true :=
  toInt_inWord h _

theorem bitNot_inWord {bits : Nat} (h : 1 ≤ bits) (a : Int) : inWord bits (bitNot bits a) = true :=
  toInt_inWord h _

/-- The bits of a word read back are the bits it came from. -/
theorem toBits_toInt {bits : Nat} (x : BitVec bits) : toBits bits x.toInt = x := by simp [toBits]

/-- `rem` is the remainder of division rounded toward zero. -/
theorem rem_eq_tmod (x y : Int) : rem x y = Int.tmod x y := by
  have := Int.mul_tdiv_add_tmod x y
  simp only [rem, quot]; omega

/-- A remainder is no larger than the divisor allows: it is a Word when the dividend is. -/
theorem rem_inWord {bits : Nat} {x : Int} (hx : inWord bits x = true) (y : Int) : inWord bits (rem x y) = true := by
  have hb : (0 : Int) < ((2 ^ (bits - 1) : Nat) : Int) := by positivity
  have hm : (Int.tmod x y).natAbs ≤ x.natAbs := by rw [Int.natAbs_tmod]; exact Nat.mod_le _ _
  rw [rem_eq_tmod]
  rw [inWord_iff, wmin, wmax] at hx ⊢
  rcases Int.le_total 0 x with h | h
  · have h1 : 0 ≤ Int.tmod x y := Int.tmod_nonneg y h
    omega
  · have h2 : 0 ≤ Int.tmod (-x) y := Int.tmod_nonneg y (by omega)
    rw [Int.neg_tmod] at h2
    omega

end Sys2Proof.Machine
end

