-- ==== Sys2Proof/Laws/Decode.lean ====
section
/-! SUPPORT. The closed enumeration of spec/30_encoding.md R72 and the instructions of the table are the same 21 outcomes. -/

namespace Sys2Proof

/-- The kind an instruction is, as an output of the decoder. -/
def DecodedWord.ofInstr : Instr → DecodedWord
  | .nop n => .nop n
  | .input n => .input n
  | .output n => .output n
  | .load n => .load n
  | .store n => .store n
  | .add n => .add n
  | .sub n => .sub n
  | .mul n => .mul n
  | .div n => .div n
  | .mod n => .mod n
  | .jmp n => .jmp n
  | .jz n => .jz n
  | .halt n => .halt n
  | .setA n => .setA n
  | .setB n => .setB n
  | .flat n => .flat n
  | .and n => .and n
  | .or n => .or n
  | .xor n => .xor n
  | .not n => .not n

/-- Reading a decoded word as an instruction gives `i` exactly where the word decoded to the kind of `i`. -/
theorem DecodedWord.instr?_eq_some_iff {d : DecodedWord} {i : Instr} : d.instr? = some i ↔ d = .ofInstr i := by
  cases d <;> cases i <;> simp [DecodedWord.instr?, DecodedWord.ofInstr]

/-- It gives none exactly on `invalid`. -/
@[simp] theorem DecodedWord.instr?_eq_none_iff {d : DecodedWord} : d.instr? = none ↔ d = .invalid := by
  cases d <;> simp [DecodedWord.instr?]

/-- A word decodes to no instruction exactly where the decoder's output is `invalid`. -/
theorem decode_eq_none_iff {w : Int} : decode w = none ↔ decodeWord w = .invalid := DecodedWord.instr?_eq_none_iff

/-- A word decodes to `i` exactly where the decoder's output is the kind of `i`. -/
theorem decode_eq_some_iff {w : Int} {i : Instr} : decode w = some i ↔ decodeWord w = .ofInstr i :=
  DecodedWord.instr?_eq_some_iff

/-- A four-digit word decodes by its two digit pairs. -/
theorem decode_of_range {w : Int} (h : 0 ≤ w ∧ w ≤ 9999) :
    decode w = (instrOfFields (w.toNat / 100) (w.toNat % 100)).instr? := by
  simp only [decode, decodeWord, decodeFields, if_pos h]

/-- Any other word is invalid. -/
theorem decode_of_not_range {w : Int} (h : ¬ (0 ≤ w ∧ w ≤ 9999)) : decode w = none := by
  simp only [decode, decodeWord, decodeFields, if_neg h, DecodedWord.instr?]

end Sys2Proof
end

