-- ==== Sys2Proof/Laws/Memory.lean ====
section
/-! SUPPORT. The laws of memory: a read after a write, and the canonical form (spec/20_memory.md R51). -/

namespace Sys2Proof.Machine

@[simp] theorem checkBound_nat (a : Nat) : checkBound (a : Int) = decide (a < capacity) := by
  simp [checkBound]

theorem checkBound_of_lt {a : Nat} (h : a < capacity) : checkBound (a : Int) = true := by simpa using h

@[simp] theorem Memory.write_draw (m : Memory) (a : Nat) (v : Int) : (m.write a v).draw = m.draw := rfl

@[simp] theorem Memory.write_drawn (m : Memory) (a b : Nat) (v : Int) : (m.write a v).drawn b = m.drawn b := rfl

theorem lookupCell_filter_same (a : Nat) (cs : List WordCell) :
    lookupCell a (cs.filter (fun c => c.1 != a)) = none := by
  induction cs with
  | nil => rfl
  | cons c cs ih =>
    by_cases h : c.1 = a
    · simpa [h] using ih
    · simpa [h, lookupCell] using ih

theorem lookupCell_filter_ne {a b : Nat} (h : b ≠ a) (cs : List WordCell) :
    lookupCell b (cs.filter (fun c => c.1 != a)) = lookupCell b cs := by
  induction cs with
  | nil => rfl
  | cons c cs ih =>
    by_cases hc : c.1 = a
    · have hb : ¬ c.1 = b := fun e => h (e.symm.trans hc)
      simpa [hc, lookupCell, hb, Ne.symm h] using ih
    · simp [hc, lookupCell, ih]

theorem lookupCell_insert_same (a : Nat) (v : Int) (cs : List WordCell) (h : lookupCell a cs = none) :
    lookupCell a (insertCell a v cs) = some v := by
  induction cs with
  | nil => simp [insertCell, lookupCell]
  | cons c cs ih =>
    have hc : ¬ c.1 = a := fun e => by simp [lookupCell, e] at h
    have ht : lookupCell a cs = none := by simpa [lookupCell, hc] using h
    by_cases hl : c.1 < a
    · simp [insertCell, hl, lookupCell, hc, ih ht]
    · simp [insertCell, hl, lookupCell]

theorem lookupCell_insert_ne {a b : Nat} (h : b ≠ a) (v : Int) (cs : List WordCell) :
    lookupCell b (insertCell a v cs) = lookupCell b cs := by
  induction cs with
  | nil => simp [insertCell, lookupCell, Ne.symm h]
  | cons c cs ih =>
    by_cases hl : c.1 < a
    · simp [insertCell, hl, lookupCell, ih]
    · simp [insertCell, hl, lookupCell, Ne.symm h]

/-- Reading back the address just written. -/
@[simp] theorem Memory.read_write_same (m : Memory) (a : Nat) (v : Int) : (m.write a v).read a = v := by
  by_cases h : v = m.drawn a
  · simp [Memory.read, Memory.write, h, lookupCell_filter_same, Memory.drawn]
  · have := lookupCell_insert_same a v _ (lookupCell_filter_same a m.cells)
    simp [Memory.read, Memory.write, h, this]

/-- Every other address reads as before. -/
theorem Memory.read_write_ne (m : Memory) {a b : Nat} (h : b ≠ a) (v : Int) : (m.write a v).read b = m.read b := by
  by_cases hv : v = m.drawn a
  · simp only [Memory.read, Memory.write_drawn]
    simp [Memory.write, hv, lookupCell_filter_ne h]
  · simp only [Memory.read, Memory.write_drawn]
    simp [Memory.write, hv, lookupCell_insert_ne h, lookupCell_filter_ne h]

theorem Memory.cellsWf_mono {m : Memory} {lo lo' : Nat} (h : lo' ≤ lo) {cs : List WordCell}
    (hw : m.cellsWf lo cs = true) : m.cellsWf lo' cs = true := by
  cases cs with
  | nil => rfl
  | cons c cs => 
    simp only [Memory.cellsWf, Bool.and_eq_true, decide_eq_true_eq] at hw ⊢
    exact ⟨⟨⟨h.trans hw.1.1.1, hw.1.1.2⟩, hw.1.2⟩, hw.2⟩

theorem Memory.cellsWf_filter {m : Memory} {lo : Nat} {cs : List WordCell} (f : WordCell → Bool)
    (hw : m.cellsWf lo cs = true) : m.cellsWf lo (cs.filter f) = true := by
  induction cs generalizing lo with
  | nil => rfl
  | cons c cs ih =>
    simp only [Memory.cellsWf, Bool.and_eq_true, decide_eq_true_eq] at hw
    obtain ⟨⟨⟨h1, h2⟩, h3⟩, h4⟩ := hw
    by_cases hf : f c = true
    · simp [hf, Memory.cellsWf, h1, h2, h3, ih h4]
    · simpa [hf] using Memory.cellsWf_mono (Nat.le_succ_of_le h1) (ih h4)

theorem Memory.cellsWf_insert {m : Memory} {lo a : Nat} {v : Int} {cs : List WordCell} (hlo : lo ≤ a)
    (ha : a < capacity) (hv : v ≠ m.drawn a) (hn : lookupCell a cs = none) (hw : m.cellsWf lo cs = true) :
    m.cellsWf lo (insertCell a v cs) = true := by
  induction cs generalizing lo with
  | nil => simp [insertCell, Memory.cellsWf, hlo, ha, hv]
  | cons c cs ih =>
    simp only [Memory.cellsWf, Bool.and_eq_true, decide_eq_true_eq] at hw
    obtain ⟨⟨⟨h1, h2⟩, h3⟩, h4⟩ := hw
    have hc : ¬ c.1 = a := fun e => by simp [lookupCell, e] at hn
    have ht : lookupCell a cs = none := by simpa [lookupCell, hc] using hn
    by_cases hl : c.1 < a
    · simp [insertCell, hl, Memory.cellsWf, h1, h2, h3, ih hl ht h4]
    · have hlt : a + 1 ≤ c.1 := by omega
      simp only [insertCell, hl, if_false, Memory.cellsWf, Bool.and_eq_true, decide_eq_true_eq]
      exact ⟨⟨⟨hlo, ha⟩, hv⟩, ⟨⟨hlt, h2⟩, h3⟩, h4⟩

/-- A cell's form depends on the draw alone. -/
theorem Memory.cellsWf_draw {m m' : Memory} (h : m'.draw = m.draw) (lo : Nat) (cs : List WordCell) :
    m'.cellsWf lo cs = m.cellsWf lo cs := by
  induction cs generalizing lo with
  | nil => rfl
  | cons c cs ih =>
    have hd : m'.drawn c.1 = m.drawn c.1 := by simp only [Memory.drawn, h]
    have hv : decide (c.2 ≠ m'.drawn c.1) = decide (c.2 ≠ m.drawn c.1) := decide_eq_decide.2 (by rw [hd])
    simp only [Memory.cellsWf, hv, ih]

/-- A write inside the capacity keeps the canonical form. -/
theorem Memory.write_wf {m : Memory} (hw : m.wf = true) {a : Nat} (ha : a < capacity) (v : Int) :
    (m.write a v).wf = true := by
  have hf := Memory.cellsWf_filter (fun c => c.1 != a) (show m.cellsWf 0 m.cells = true from hw)
  unfold Memory.wf
  rw [Memory.cellsWf_draw (Memory.write_draw m a v)]
  by_cases hv : v = m.drawn a
  · simpa [Memory.write, hv] using hf
  · simpa [Memory.write, hv] using
      Memory.cellsWf_insert (Nat.zero_le a) ha hv (lookupCell_filter_same a m.cells) hf

/-- Memory with nothing written is canonical. -/
@[simp] theorem Memory.wf_empty (d : Vector Int capacity) : Memory.wf ⟨[], d⟩ = true := rfl

/-- Memory with nothing written reads as the draw (spec/70_reset_and_hazards.md R171). -/
theorem Memory.read_empty (d : Vector Int capacity) {a : Nat} (h : a < capacity) :
    Memory.read ⟨[], d⟩ a = d[a] := by
  simp [Memory.read, lookupCell, Memory.drawn, h]

end Sys2Proof.Machine
end

