-- ==== Sys2Proof/Laws/State.lean ====
section
/-! SUPPORT. One lemma per field per named update of State, true by rfl, so that no proof unfolds a record update. -/

namespace Sys2Proof.Machine

variable (s : State)

@[simp] theorem State.setAcc_params (v : Int) : (s.setAcc v).params = s.params := rfl
@[simp] theorem State.setAcc_mem (v : Int) : (s.setAcc v).mem = s.mem := rfl
@[simp] theorem State.setAcc_pc (v : Int) : (s.setAcc v).pc = s.pc := rfl
@[simp] theorem State.setAcc_ir (v : Int) : (s.setAcc v).ir = s.ir := rfl
@[simp] theorem State.setAcc_acc (v : Int) : (s.setAcc v).acc = v := rfl
@[simp] theorem State.setAcc_auxA (v : Int) : (s.setAcc v).auxA = s.auxA := rfl
@[simp] theorem State.setAcc_auxB (v : Int) : (s.setAcc v).auxB = s.auxB := rfl
@[simp] theorem State.setAcc_run (v : Int) : (s.setAcc v).run = s.run := rfl
@[simp] theorem State.setAcc_term (v : Int) : (s.setAcc v).term = s.term := rfl
@[simp] theorem State.setAcc_input (v : Int) : (s.setAcc v).input = s.input := rfl
@[simp] theorem State.setAcc_output (v : Int) : (s.setAcc v).output = s.output := rfl

@[simp] theorem State.setAuxA_params (v : Int) : (s.setAuxA v).params = s.params := rfl
@[simp] theorem State.setAuxA_mem (v : Int) : (s.setAuxA v).mem = s.mem := rfl
@[simp] theorem State.setAuxA_pc (v : Int) : (s.setAuxA v).pc = s.pc := rfl
@[simp] theorem State.setAuxA_ir (v : Int) : (s.setAuxA v).ir = s.ir := rfl
@[simp] theorem State.setAuxA_acc (v : Int) : (s.setAuxA v).acc = s.acc := rfl
@[simp] theorem State.setAuxA_auxA (v : Int) : (s.setAuxA v).auxA = v := rfl
@[simp] theorem State.setAuxA_auxB (v : Int) : (s.setAuxA v).auxB = s.auxB := rfl
@[simp] theorem State.setAuxA_run (v : Int) : (s.setAuxA v).run = s.run := rfl
@[simp] theorem State.setAuxA_term (v : Int) : (s.setAuxA v).term = s.term := rfl
@[simp] theorem State.setAuxA_input (v : Int) : (s.setAuxA v).input = s.input := rfl
@[simp] theorem State.setAuxA_output (v : Int) : (s.setAuxA v).output = s.output := rfl

@[simp] theorem State.setAuxB_params (v : Int) : (s.setAuxB v).params = s.params := rfl
@[simp] theorem State.setAuxB_mem (v : Int) : (s.setAuxB v).mem = s.mem := rfl
@[simp] theorem State.setAuxB_pc (v : Int) : (s.setAuxB v).pc = s.pc := rfl
@[simp] theorem State.setAuxB_ir (v : Int) : (s.setAuxB v).ir = s.ir := rfl
@[simp] theorem State.setAuxB_acc (v : Int) : (s.setAuxB v).acc = s.acc := rfl
@[simp] theorem State.setAuxB_auxA (v : Int) : (s.setAuxB v).auxA = s.auxA := rfl
@[simp] theorem State.setAuxB_auxB (v : Int) : (s.setAuxB v).auxB = v := rfl
@[simp] theorem State.setAuxB_run (v : Int) : (s.setAuxB v).run = s.run := rfl
@[simp] theorem State.setAuxB_term (v : Int) : (s.setAuxB v).term = s.term := rfl
@[simp] theorem State.setAuxB_input (v : Int) : (s.setAuxB v).input = s.input := rfl
@[simp] theorem State.setAuxB_output (v : Int) : (s.setAuxB v).output = s.output := rfl

@[simp] theorem State.setIr_params (w : Int) : (s.setIr w).params = s.params := rfl
@[simp] theorem State.setIr_mem (w : Int) : (s.setIr w).mem = s.mem := rfl
@[simp] theorem State.setIr_pc (w : Int) : (s.setIr w).pc = s.pc := rfl
@[simp] theorem State.setIr_ir (w : Int) : (s.setIr w).ir = w := rfl
@[simp] theorem State.setIr_acc (w : Int) : (s.setIr w).acc = s.acc := rfl
@[simp] theorem State.setIr_auxA (w : Int) : (s.setIr w).auxA = s.auxA := rfl
@[simp] theorem State.setIr_auxB (w : Int) : (s.setIr w).auxB = s.auxB := rfl
@[simp] theorem State.setIr_run (w : Int) : (s.setIr w).run = s.run := rfl
@[simp] theorem State.setIr_term (w : Int) : (s.setIr w).term = s.term := rfl
@[simp] theorem State.setIr_input (w : Int) : (s.setIr w).input = s.input := rfl
@[simp] theorem State.setIr_output (w : Int) : (s.setIr w).output = s.output := rfl

@[simp] theorem State.setPc_params (t : Nat) : (s.setPc t).params = s.params := rfl
@[simp] theorem State.setPc_mem (t : Nat) : (s.setPc t).mem = s.mem := rfl
@[simp] theorem State.setPc_pc (t : Nat) : (s.setPc t).pc = t := rfl
@[simp] theorem State.setPc_ir (t : Nat) : (s.setPc t).ir = s.ir := rfl
@[simp] theorem State.setPc_acc (t : Nat) : (s.setPc t).acc = s.acc := rfl
@[simp] theorem State.setPc_auxA (t : Nat) : (s.setPc t).auxA = s.auxA := rfl
@[simp] theorem State.setPc_auxB (t : Nat) : (s.setPc t).auxB = s.auxB := rfl
@[simp] theorem State.setPc_run (t : Nat) : (s.setPc t).run = s.run := rfl
@[simp] theorem State.setPc_term (t : Nat) : (s.setPc t).term = s.term := rfl
@[simp] theorem State.setPc_input (t : Nat) : (s.setPc t).input = s.input := rfl
@[simp] theorem State.setPc_output (t : Nat) : (s.setPc t).output = s.output := rfl

@[simp] theorem State.storeWord_params (a : Nat) (v : Int) : (s.storeWord a v).params = s.params := rfl
@[simp] theorem State.storeWord_mem (a : Nat) (v : Int) : (s.storeWord a v).mem = s.mem.write a v := rfl
@[simp] theorem State.storeWord_pc (a : Nat) (v : Int) : (s.storeWord a v).pc = s.pc := rfl
@[simp] theorem State.storeWord_ir (a : Nat) (v : Int) : (s.storeWord a v).ir = s.ir := rfl
@[simp] theorem State.storeWord_acc (a : Nat) (v : Int) : (s.storeWord a v).acc = s.acc := rfl
@[simp] theorem State.storeWord_auxA (a : Nat) (v : Int) : (s.storeWord a v).auxA = s.auxA := rfl
@[simp] theorem State.storeWord_auxB (a : Nat) (v : Int) : (s.storeWord a v).auxB = s.auxB := rfl
@[simp] theorem State.storeWord_run (a : Nat) (v : Int) : (s.storeWord a v).run = s.run := rfl
@[simp] theorem State.storeWord_term (a : Nat) (v : Int) : (s.storeWord a v).term = s.term := rfl
@[simp] theorem State.storeWord_input (a : Nat) (v : Int) : (s.storeWord a v).input = s.input := rfl
@[simp] theorem State.storeWord_output (a : Nat) (v : Int) : (s.storeWord a v).output = s.output := rfl

@[simp] theorem State.outWrite_params (v : Int) : (s.outWrite v).params = s.params := rfl
@[simp] theorem State.outWrite_mem (v : Int) : (s.outWrite v).mem = s.mem := rfl
@[simp] theorem State.outWrite_pc (v : Int) : (s.outWrite v).pc = s.pc := rfl
@[simp] theorem State.outWrite_ir (v : Int) : (s.outWrite v).ir = s.ir := rfl
@[simp] theorem State.outWrite_acc (v : Int) : (s.outWrite v).acc = s.acc := rfl
@[simp] theorem State.outWrite_auxA (v : Int) : (s.outWrite v).auxA = s.auxA := rfl
@[simp] theorem State.outWrite_auxB (v : Int) : (s.outWrite v).auxB = s.auxB := rfl
@[simp] theorem State.outWrite_run (v : Int) : (s.outWrite v).run = s.run := rfl
@[simp] theorem State.outWrite_term (v : Int) : (s.outWrite v).term = s.term := rfl
@[simp] theorem State.outWrite_input (v : Int) : (s.outWrite v).input = s.input := rfl
@[simp] theorem State.outWrite_output (v : Int) : (s.outWrite v).output = s.output ++ [v] := rfl

@[simp] theorem State.takeAnswer_params : s.takeAnswer.params = s.params := rfl
@[simp] theorem State.takeAnswer_mem : s.takeAnswer.mem = s.mem := rfl
@[simp] theorem State.takeAnswer_pc : s.takeAnswer.pc = s.pc := rfl
@[simp] theorem State.takeAnswer_ir : s.takeAnswer.ir = s.ir := rfl
@[simp] theorem State.takeAnswer_acc : s.takeAnswer.acc = s.acc := rfl
@[simp] theorem State.takeAnswer_auxA : s.takeAnswer.auxA = s.auxA := rfl
@[simp] theorem State.takeAnswer_auxB : s.takeAnswer.auxB = s.auxB := rfl
@[simp] theorem State.takeAnswer_run : s.takeAnswer.run = s.run := rfl
@[simp] theorem State.takeAnswer_term : s.takeAnswer.term = s.term := rfl
@[simp] theorem State.takeAnswer_input : s.takeAnswer.input = s.input.tail := rfl
@[simp] theorem State.takeAnswer_output : s.takeAnswer.output = s.output := rfl

@[simp] theorem State.answerInput_params (a : InputAnswer) : (s.answerInput a).params = s.params := rfl
@[simp] theorem State.answerInput_mem (a : InputAnswer) : (s.answerInput a).mem = s.mem := rfl
@[simp] theorem State.answerInput_pc (a : InputAnswer) : (s.answerInput a).pc = s.pc := rfl
@[simp] theorem State.answerInput_ir (a : InputAnswer) : (s.answerInput a).ir = s.ir := rfl
@[simp] theorem State.answerInput_acc (a : InputAnswer) : (s.answerInput a).acc = s.acc := rfl
@[simp] theorem State.answerInput_auxA (a : InputAnswer) : (s.answerInput a).auxA = s.auxA := rfl
@[simp] theorem State.answerInput_auxB (a : InputAnswer) : (s.answerInput a).auxB = s.auxB := rfl
@[simp] theorem State.answerInput_run (a : InputAnswer) : (s.answerInput a).run = s.run := rfl
@[simp] theorem State.answerInput_term (a : InputAnswer) : (s.answerInput a).term = s.term := rfl
@[simp] theorem State.answerInput_input (a : InputAnswer) : (s.answerInput a).input = s.input ++ [a] := rfl
@[simp] theorem State.answerInput_output (a : InputAnswer) : (s.answerInput a).output = s.output := rfl

@[simp] theorem State.halt_params (g : Signal) (c : ExitCode) : (s.halt g c).params = s.params := rfl
@[simp] theorem State.halt_mem (g : Signal) (c : ExitCode) : (s.halt g c).mem = s.mem := rfl
@[simp] theorem State.halt_pc (g : Signal) (c : ExitCode) : (s.halt g c).pc = s.pc := rfl
@[simp] theorem State.halt_ir (g : Signal) (c : ExitCode) : (s.halt g c).ir = s.ir := rfl
@[simp] theorem State.halt_acc (g : Signal) (c : ExitCode) : (s.halt g c).acc = s.acc := rfl
@[simp] theorem State.halt_auxA (g : Signal) (c : ExitCode) : (s.halt g c).auxA = s.auxA := rfl
@[simp] theorem State.halt_auxB (g : Signal) (c : ExitCode) : (s.halt g c).auxB = s.auxB := rfl
@[simp] theorem State.halt_run (g : Signal) (c : ExitCode) : (s.halt g c).run = .halted := rfl
@[simp] theorem State.halt_term (g : Signal) (c : ExitCode) : (s.halt g c).term = some ⟨c, g⟩ := rfl
@[simp] theorem State.halt_input (g : Signal) (c : ExitCode) : (s.halt g c).input = s.input := rfl
@[simp] theorem State.halt_output (g : Signal) (c : ExitCode) : (s.halt g c).output = s.output := rfl

@[simp] theorem State.haltSignal_params (g : Signal) : (s.haltSignal g).params = s.params := rfl
@[simp] theorem State.haltSignal_mem (g : Signal) : (s.haltSignal g).mem = s.mem := rfl
@[simp] theorem State.haltSignal_pc (g : Signal) : (s.haltSignal g).pc = s.pc := rfl
@[simp] theorem State.haltSignal_ir (g : Signal) : (s.haltSignal g).ir = s.ir := rfl
@[simp] theorem State.haltSignal_acc (g : Signal) : (s.haltSignal g).acc = s.acc := rfl
@[simp] theorem State.haltSignal_auxA (g : Signal) : (s.haltSignal g).auxA = s.auxA := rfl
@[simp] theorem State.haltSignal_auxB (g : Signal) : (s.haltSignal g).auxB = s.auxB := rfl
@[simp] theorem State.haltSignal_run (g : Signal) : (s.haltSignal g).run = .halted := rfl
@[simp] theorem State.haltSignal_term (g : Signal) : (s.haltSignal g).term = some ⟨s.params.codes.code g, g⟩ := rfl
@[simp] theorem State.haltSignal_input (g : Signal) : (s.haltSignal g).input = s.input := rfl
@[simp] theorem State.haltSignal_output (g : Signal) : (s.haltSignal g).output = s.output := rfl

@[simp] theorem Fault.left_mapLeft (f : State → State) (e : Fault) : (e.mapLeft f).left = f e.left := by
  cases e <;> rfl

section Construct
variable (p : Params) (d : Vector Int capacity) (l : List InputAnswer)

@[simp] theorem State.construct_params : (State.construct p d l).params = p := rfl
@[simp] theorem State.construct_mem : (State.construct p d l).mem = ⟨[], d⟩ := rfl
@[simp] theorem State.construct_pc : (State.construct p d l).pc = 0 := rfl
@[simp] theorem State.construct_ir : (State.construct p d l).ir = 0 := rfl
@[simp] theorem State.construct_acc : (State.construct p d l).acc = 0 := rfl
@[simp] theorem State.construct_auxA : (State.construct p d l).auxA = 0 := rfl
@[simp] theorem State.construct_auxB : (State.construct p d l).auxB = 0 := rfl
@[simp] theorem State.construct_run : (State.construct p d l).run = .running := rfl
@[simp] theorem State.construct_term : (State.construct p d l).term = none := rfl
@[simp] theorem State.construct_input : (State.construct p d l).input = l := rfl
@[simp] theorem State.construct_output : (State.construct p d l).output = [] := rfl

end Construct

end Sys2Proof.Machine
end

