-- ==== Sys2Proof/Laws/Ops.lean ====
section
/-! SUPPORT. What each shared operation can do, said once: an equation for each way through it, and an inversion lemma
for what holds when it answers a next state. Provers cite these and unfold no operation. -/

namespace Sys2Proof.Machine

variable {s t : State} {n : Nat}

/-! ## retire (spec/40_control.md R84, R85) -/

@[simp] theorem retire_success (s t : State) : retire s (.success t) = .next (t.setPc (t.pc + 1)) := rfl
@[simp] theorem retire_jumped (s t : State) : retire s (.jumped t) = .next t := rfl
@[simp] theorem retire_held (s : State) : retire s .held = .next s := rfl
@[simp] theorem retire_outOfBounds (s : State) (a : Int) :
    retire s (.raised (.outOfBounds a)) = .next (s.haltSignal .outOfMemory) := rfl
@[simp] theorem retire_invalidOpcode (s : State) :
    retire s (.raised .invalidOpcode) = .next (s.haltSignal .invalidOpcode) := rfl
@[simp] theorem retire_explicitHalt (s : State) (c : ExitCode) :
    retire s (.raised (.explicitHalt c)) = .next (s.halt .explicitHalt c) := rfl
@[simp] theorem retire_other (s : State) (r : OtherReason) :
    retire s (.raised (.other r)) = .next (s.haltSignal .other) := rfl
@[simp] theorem retire_overflow (s : State) :
    retire s (.raised (.undefined .overflow)) = .fault (.undefinedOverflow s) := rfl
@[simp] theorem retire_divideByZero (s : State) :
    retire s (.raised (.undefined .divideByZero)) = .fault (.undefinedDivideByZero s) := rfl

/-- Retiring never refuses. -/
theorem retire_ne_refused (s : State) (r : UnitResult) (q : Refusal) : retire s r ≠ .refused q := by
  rcases r with _ | _ | _ | (_ | _ | _ | _ | (_ | _)) <;> simp [retire, raiseFailure]

/-! ## Operands (spec/20_memory.md R41) -/

theorem withOperand_inBounds (h : n < capacity) (s : State) (use : Int → UnitResult) :
    withOperand n s use = use (s.mem.read n) := by simp [withOperand, checkBound_of_lt h]

theorem withOperand_outOfBounds (h : ¬ n < capacity) (s : State) (use : Int → UnitResult) :
    withOperand n s use = .raised (.outOfBounds n) := by simp [withOperand, h]

theorem storeOperand_inBounds (h : n < capacity) (v : Int) (s : State) :
    storeOperand n v s = .success (s.storeWord n v) := by simp [storeOperand, checkBound_of_lt h]

theorem storeOperand_outOfBounds (h : ¬ n < capacity) (v : Int) (s : State) :
    storeOperand n v s = .raised (.outOfBounds n) := by simp [storeOperand, h]

theorem jumpIf_taken (h : n < capacity) (s : State) : jumpIf true n s = .jumped (s.setPc n) := by
  simp [jumpIf, checkBound_of_lt h]

theorem jumpIf_notTaken (h : n < capacity) (s : State) : jumpIf false n s = .success s := by
  simp [jumpIf, checkBound_of_lt h]

theorem jumpIf_outOfBounds (h : ¬ n < capacity) (taken : Bool) (s : State) :
    jumpIf taken n s = .raised (.outOfBounds n) := by simp [jumpIf, h]

/-! ## The condition of JZ (spec/40_control.md R88) -/

theorem accIsZero_of_zero (h : s.acc = 0) : accIsZero s = true := by simp [accIsZero, State.readAcc, h]

theorem accIsZero_of_ne (h : s.acc ≠ 0) : accIsZero s = false := by simp [accIsZero, State.readAcc, h]

/-! ## The arithmetic unit's policies (spec/41_arithmetic.md R101, R103) -/

theorem settleAcc_inWord {r : Int} (h : inWord s.params.wordBits r = true) :
    settleAcc s r = .success (s.setAcc r) := by simp [settleAcc, h]

theorem settleAcc_wrap {r : Int} (h : inWord s.params.wordBits r = false) (hp : s.params.overflow = .wrap) :
    settleAcc s r = .success (s.setAcc (wrap s.params.wordBits r)) := by simp [settleAcc, h, hp]

theorem settleAcc_undefined {r : Int} (h : inWord s.params.wordBits r = false) (hp : s.params.overflow = .undefined) :
    settleAcc s r = .raised (.undefined .overflow) := by simp [settleAcc, h, hp]

/-! ## The meanings as equations

Each says what `exec` is on one instruction. Rewrite with these before unifying: an `exec` term matched against a shared
operation by unfolding can make Lean unfold `n < 128` in unary. -/

theorem exec_input (n : Nat) (s : State) : exec (.input n) s = execInput n s := rfl
theorem exec_nop (n : Nat) (s : State) : exec (.nop n) s =
    retire s (.success s) := rfl
theorem exec_output (n : Nat) (s : State) : exec (.output n) s =
    retire s (withOperand n s fun y => .success (s.outWrite y)) := rfl
theorem exec_load (n : Nat) (s : State) : exec (.load n) s =
    retire s (withOperand n s fun y => .success (s.setAcc y)) := rfl
theorem exec_store (n : Nat) (s : State) : exec (.store n) s =
    retire s (storeOperand n s.acc s) := rfl
theorem exec_add (n : Nat) (s : State) : exec (.add n) s =
    retire s (withOperand n s fun y => settleAcc s (s.acc + y)) := rfl
theorem exec_sub (n : Nat) (s : State) : exec (.sub n) s =
    retire s (withOperand n s fun y => settleAcc s (s.acc - y)) := rfl
theorem exec_mul (n : Nat) (s : State) : exec (.mul n) s =
    retire s (withOperand n s fun y => settleAcc s (s.acc * y)) := rfl
theorem exec_div (n : Nat) (s : State) : exec (.div n) s =
    retire s (withOperand n s fun y =>
      if y = 0 then divisorZero s else settleAcc s (quot s.acc y)) := rfl
theorem exec_mod (n : Nat) (s : State) : exec (.mod n) s =
    retire s (withOperand n s fun y =>
      if y = 0 then divisorZero s
      else if s.acc = wmin s.params.wordBits ∧ y = -1 then settleModOverflow s
      else .success (s.setAcc (rem s.acc y))) := rfl
theorem exec_jmp (n : Nat) (s : State) : exec (.jmp n) s =
    retire s (jumpIf true n s) := rfl
theorem exec_jz (n : Nat) (s : State) : exec (.jz n) s =
    retire s (jumpIf (accIsZero s) n s) := rfl
theorem exec_halt (n : Nat) (s : State) : exec (.halt n) s =
    retire s (.raised (.explicitHalt (exitCodeOf n))) := rfl
theorem exec_setA (n : Nat) (s : State) : exec (.setA n) s =
    retire s (withOperand n s fun y => .success (s.setAuxA y)) := rfl
theorem exec_setB (n : Nat) (s : State) : exec (.setB n) s =
    retire s (withOperand n s fun y => .success (s.setAuxB y)) := rfl
theorem exec_flat (n : Nat) (s : State) : exec (.flat n) s =
    retire s (.success
      ((s.setAuxA (bitAnd s.params.wordBits s.auxA 1)).setAuxB (bitAnd s.params.wordBits s.auxB 1))) := rfl
theorem exec_and (n : Nat) (s : State) : exec (.and n) s =
    retire s (storeOperand n (bitAnd s.params.wordBits s.auxA s.auxB) s) := rfl
theorem exec_or (n : Nat) (s : State) : exec (.or n) s =
    retire s (storeOperand n (bitOr s.params.wordBits s.auxA s.auxB) s) := rfl
theorem exec_xor (n : Nat) (s : State) : exec (.xor n) s =
    retire s (storeOperand n (bitXor s.params.wordBits s.auxA s.auxB) s) := rfl
theorem exec_not (n : Nat) (s : State) : exec (.not n) s =
    retire s (storeOperand n (bitNot s.params.wordBits s.auxA) s) := rfl

/-- IN by its three ways. -/
theorem execInput_held (h : n < capacity) (hi : s.input = []) : execInput n s = .next s := by
  simp [execInput, checkBound_of_lt h, hi]

theorem execInput_answer (h : n < capacity) {a : InputAnswer} {rest : List InputAnswer} (hi : s.input = a :: rest) :
    execInput n s = receive n a s := by
  simp [execInput, checkBound_of_lt h, hi]

theorem execInput_outOfBounds (h : ¬ n < capacity) : execInput n s = .next (s.haltSignal .outOfMemory) := by
  simp [execInput, h]

/-! ## Inversion: what an operation did when it answered a next state -/

theorem withOperand_next {use : Int → UnitResult} (h : retire s (withOperand n s use) = .next t) :
    t = s.haltSignal .outOfMemory ∨ (n < capacity ∧ retire s (use (s.mem.read n)) = .next t) := by
  by_cases hn : n < capacity
  · rw [withOperand_inBounds hn] at h; exact .inr ⟨hn, h⟩
  · rw [withOperand_outOfBounds hn, retire_outOfBounds, Host.Outcome.next.injEq] at h; exact .inl h.symm

theorem storeOperand_next {v : Int} (h : retire s (storeOperand n v s) = .next t) :
    t = s.haltSignal .outOfMemory ∨ (n < capacity ∧ t = (s.storeWord n v).setPc (s.pc + 1)) := by
  by_cases hn : n < capacity
  · rw [storeOperand_inBounds hn, retire_success, Host.Outcome.next.injEq] at h; exact .inr ⟨hn, h.symm⟩
  · rw [storeOperand_outOfBounds hn, retire_outOfBounds, Host.Outcome.next.injEq] at h; exact .inl h.symm

theorem jumpIf_next {b : Bool} (h : retire s (jumpIf b n s) = .next t) :
    t = s.haltSignal .outOfMemory ∨ (n < capacity ∧ b = true ∧ t = s.setPc n) ∨
      (n < capacity ∧ b = false ∧ t = s.setPc (s.pc + 1)) := by
  by_cases hn : n < capacity
  · cases b
    · rw [jumpIf_notTaken hn, retire_success, Host.Outcome.next.injEq] at h
      exact .inr (.inr ⟨hn, rfl, h.symm⟩)
    · rw [jumpIf_taken hn, retire_jumped, Host.Outcome.next.injEq] at h
      exact .inr (.inl ⟨hn, rfl, h.symm⟩)
  · rw [jumpIf_outOfBounds hn, retire_outOfBounds, Host.Outcome.next.injEq] at h; exact .inl h.symm

/-- R101 in a next state: the exact result where it is a Word, else its wrapping under `wrap`. -/
theorem settleAcc_next {r : Int} (h : retire s (settleAcc s r) = .next t) :
    ∃ v, t = (s.setAcc v).setPc (s.pc + 1) ∧
      ((inWord s.params.wordBits r = true ∧ v = r) ∨
        (s.params.overflow = .wrap ∧ v = wrap s.params.wordBits r)) := by
  cases hr : inWord s.params.wordBits r with
  | true =>
    rw [settleAcc_inWord hr, retire_success, Host.Outcome.next.injEq] at h
    exact ⟨r, h.symm, .inl ⟨rfl, rfl⟩⟩
  | false =>
    cases hp : s.params.overflow with
    | undefined => simp [settleAcc_undefined hr hp] at h
    | wrap =>
      rw [settleAcc_wrap hr hp, retire_success, Host.Outcome.next.injEq] at h
      exact ⟨_, h.symm, .inr ⟨rfl, rfl⟩⟩

/-- R103 in a next state: the halt with OTHER. -/
theorem divisorZero_next (h : retire s (divisorZero s) = .next t) :
    s.params.divZero = .other ∧ t = s.haltSignal .other := by
  cases hp : s.params.divZero <;> simp [divisorZero, hp] at h
  exact ⟨rfl, h.symm⟩

/-- R101's MOD case in a next state: zero. -/
theorem settleModOverflow_next (h : retire s (settleModOverflow s) = .next t) :
    s.params.overflow = .wrap ∧ t = (s.setAcc 0).setPc (s.pc + 1) := by
  cases hp : s.params.overflow <;> simp [settleModOverflow, hp] at h
  exact ⟨rfl, h.symm⟩

theorem answerWord_inWord {bits : Nat} {a : InputAnswer} {v : Int} (h : answerWord bits a = some v) :
    inWord bits v = true := by
  cases a with
  | value x =>
    cases hx : inWord bits x with
    | true =>
      have : x = v := by simpa [answerWord, hx] using h
      exact this ▸ hx
    | false => simp [answerWord, hx] at h
  | nonNumeric => simp [answerWord] at h
  | endOfInput => simp [answerWord] at h

/-- IN in a next state (spec/43_io.md R142, R143, R147). -/
theorem execInput_next (h : execInput n s = .next t) :
    t = s.haltSignal .outOfMemory ∨ (n < capacity ∧ s.input = [] ∧ t = s) ∨
      (n < capacity ∧ ∃ a rest, s.input = a :: rest ∧
        ((∃ v, answerWord s.params.wordBits a = some v ∧
            t = (s.takeAnswer.storeWord n v).setPc (s.pc + 1)) ∨
          (answerWord s.params.wordBits a = none ∧ t = s.takeAnswer.haltSignal .other))) := by
  by_cases hn : n < capacity
  · cases hi : s.input with
    | nil =>
      rw [execInput_held hn hi, Host.Outcome.next.injEq] at h
      exact .inr (.inl ⟨hn, rfl, h.symm⟩)
    | cons a rest =>
      rw [execInput_answer hn hi] at h
      refine .inr (.inr ⟨hn, a, rest, rfl, ?_⟩)
      cases ha : answerWord s.params.wordBits a with
      | some v =>
        simp only [receive, ha, retire_success, Host.Outcome.next.injEq] at h
        exact .inl ⟨v, rfl, h.symm⟩
      | none =>
        simp only [receive, ha, retire_other, Host.Outcome.next.injEq] at h
        exact .inr ⟨rfl, h.symm⟩
  · rw [execInput_outOfBounds hn, Host.Outcome.next.injEq] at h; exact .inl h.symm

/-! ## Inversion of exec: every way an instruction ends in a next state -/

/-- `v` is a Word whenever the registers and memory of `s` hold Words. -/
def WordFrom (s : State) (v : Int) : Prop :=
  1 ≤ s.params.wordBits → inWord s.params.wordBits s.acc = true → inWord s.params.wordBits s.auxA = true →
    inWord s.params.wordBits s.auxB = true →
    (∀ a, a < capacity → inWord s.params.wordBits (s.mem.read a) = true) → inWord s.params.wordBits v = true

/-- The ways the meaning of an instruction that begins in `s` ends in a next state. -/
inductive Effect (s : State) : Instr → State → Prop
  | nop (n : Nat) : Effect s (.nop n) (s.setPc (s.pc + 1))
  /-- JMP, JZ taken: the target passed the check. -/
  | jump (i : Instr) (n : Nat) : (i = .jmp n ∨ (i = .jz n ∧ s.acc = 0)) → n < capacity → Effect s i (s.setPc n)
  /-- JZ not taken. -/
  | fallThrough (n : Nat) : s.acc ≠ 0 → Effect s (.jz n) (s.setPc (s.pc + 1))
  | acc (i : Instr) (n : Nat) (v : Int) : i ∈ [Instr.load n, .add n, .sub n, .mul n, .div n, .mod n] → WordFrom s v →
      Effect s i ((s.setAcc v).setPc (s.pc + 1))
  | setA (n : Nat) : n < capacity → Effect s (.setA n) ((s.setAuxA (s.mem.read n)).setPc (s.pc + 1))
  | setB (n : Nat) : n < capacity → Effect s (.setB n) ((s.setAuxB (s.mem.read n)).setPc (s.pc + 1))
  | flat (n : Nat) : Effect s (.flat n)
      (((s.setAuxA (bitAnd s.params.wordBits s.auxA 1)).setAuxB (bitAnd s.params.wordBits s.auxB 1)).setPc (s.pc + 1))
  | store (i : Instr) (n : Nat) (v : Int) : i ∈ [Instr.store n, .and n, .or n, .xor n, .not n] → n < capacity →
      WordFrom s v → Effect s i ((s.storeWord n v).setPc (s.pc + 1))
  /-- IN with a value. -/
  | receive (n : Nat) (a : InputAnswer) (v : Int) : n < capacity → s.input = a :: s.takeAnswer.input →
      answerWord s.params.wordBits a = some v → Effect s (.input n) ((s.takeAnswer.storeWord n v).setPc (s.pc + 1))
  /-- IN with an error answer. -/
  | inputError (n : Nat) (a : InputAnswer) : s.input = a :: s.takeAnswer.input →
      answerWord s.params.wordBits a = none → Effect s (.input n) (s.takeAnswer.haltSignal .other)
  /-- IN with no answer. -/
  | held (n : Nat) : n < capacity → s.input = [] → Effect s (.input n) s
  | send (n : Nat) : n < capacity → Effect s (.output n) ((s.outWrite (s.mem.read n)).setPc (s.pc + 1))
  | explicitHalt (n : Nat) : Effect s (.halt n) (s.halt .explicitHalt (exitCodeOf n))
  | zeroDivisor (i : Instr) (n : Nat) : i ∈ [Instr.div n, .mod n] → s.mem.read n = 0 → s.params.divZero = .other →
      Effect s i (s.haltSignal .other)
  | outOfBounds (i : Instr) : ¬ i.operand < capacity → Effect s i (s.haltSignal .outOfMemory)

theorem effect_withOperand {i : Instr} {use : Int → UnitResult} (hi : i.operand = n)
    (h : retire s (withOperand n s use) = .next t)
    (hu : n < capacity → retire s (use (s.mem.read n)) = .next t → Effect s i t) : Effect s i t := by
  by_cases hn : n < capacity
  · rw [withOperand_inBounds hn] at h; exact hu hn h
  · rw [withOperand_outOfBounds hn, retire_outOfBounds, Host.Outcome.next.injEq] at h
    exact h ▸ .outOfBounds i (hi ▸ hn)

theorem effect_storeOperand {i : Instr} {v : Int} (hm : i ∈ [Instr.store n, .and n, .or n, .xor n, .not n])
    (hi : i.operand = n) (hv : WordFrom s v) (h : retire s (storeOperand n v s) = .next t) : Effect s i t := by
  by_cases hn : n < capacity
  · rw [storeOperand_inBounds hn, retire_success, Host.Outcome.next.injEq] at h; exact h ▸ .store i n v hm hn hv
  · rw [storeOperand_outOfBounds hn, retire_outOfBounds, Host.Outcome.next.injEq] at h
    exact h ▸ .outOfBounds i (hi ▸ hn)

theorem effect_settleAcc {i : Instr} {r : Int} (hm : i ∈ [Instr.load n, .add n, .sub n, .mul n, .div n, .mod n])
    (h : retire s (settleAcc s r) = .next t) : Effect s i t := by
  obtain ⟨v, rfl, ⟨hr, rfl⟩ | ⟨-, rfl⟩⟩ := settleAcc_next h
  · exact .acc i n _ hm fun _ _ _ _ _ => hr
  · exact .acc i n _ hm fun hb _ _ _ _ => wrap_inWord hb r

theorem effect_divisorZero {i : Instr} (hm : i ∈ [Instr.div n, .mod n]) (hz : s.mem.read n = 0)
    (h : retire s (divisorZero s) = .next t) : Effect s i t := by
  obtain ⟨hp, rfl⟩ := divisorZero_next h
  exact .zeroDivisor i n hm hz hp

theorem effect_input (h : execInput n s = .next t) : Effect s (.input n) t := by
  by_cases hn : n < capacity
  · cases hi : s.input with
    | nil =>
      rw [execInput_held hn hi, Host.Outcome.next.injEq] at h
      exact h ▸ .held n hn hi
    | cons a rest =>
      rw [execInput_answer hn hi] at h
      cases ha : answerWord s.params.wordBits a with
      | some v =>
        simp only [receive, ha, retire_success, Host.Outcome.next.injEq] at h
        exact h ▸ .receive n a v hn (by simp [hi]) ha
      | none =>
        simp only [receive, ha, retire_other, Host.Outcome.next.injEq] at h
        exact h ▸ .inputError n a (by simp [hi]) ha
  · rw [execInput_outOfBounds hn, Host.Outcome.next.injEq] at h
    exact h ▸ .outOfBounds (.input n) hn

/-- THE inversion lemma: a meaning that answers `next t` did one of the things `Effect` lists. -/
theorem exec_effect {i : Instr} (h : exec i s = .next t) : Effect s i t := by
  cases i with
  | nop n => rw [exec_nop, retire_success, Host.Outcome.next.injEq] at h; exact h ▸ .nop n
  | input n => rw [exec_input] at h; exact effect_input h
  | output n =>
    rw [exec_output] at h
    refine effect_withOperand rfl h fun hn h => ?_
    rw [retire_success, Host.Outcome.next.injEq] at h
    exact h ▸ .send n hn
  | load n =>
    rw [exec_load] at h
    refine effect_withOperand rfl h fun hn h => ?_
    rw [retire_success, Host.Outcome.next.injEq] at h
    exact h ▸ .acc _ n _ (by simp) fun _ _ _ _ hm => hm n hn
  | store n => rw [exec_store] at h; exact effect_storeOperand (n := n) (by simp) rfl (fun _ ha _ _ _ => ha) h
  | add n => rw [exec_add] at h; exact effect_withOperand rfl h fun _ h => effect_settleAcc (n := n) (by simp) h
  | sub n => rw [exec_sub] at h; exact effect_withOperand rfl h fun _ h => effect_settleAcc (n := n) (by simp) h
  | mul n => rw [exec_mul] at h; exact effect_withOperand rfl h fun _ h => effect_settleAcc (n := n) (by simp) h
  | div n =>
    rw [exec_div] at h
    refine effect_withOperand rfl h fun _ h => ?_
    split at h
    next hz => exact effect_divisorZero (n := n) (by simp) hz h
    next => exact effect_settleAcc (n := n) (by simp) h
  | mod n =>
    rw [exec_mod] at h
    refine effect_withOperand rfl h fun _ h => ?_
    split at h
    next hz => exact effect_divisorZero (n := n) (by simp) hz h
    next =>
      split at h
      · obtain ⟨-, rfl⟩ := settleModOverflow_next h
        exact .acc _ n _ (by simp) fun _ _ _ _ _ => inWord_zero _
      · rw [retire_success, Host.Outcome.next.injEq] at h
        exact h ▸ .acc _ n _ (by simp) fun _ ha _ _ _ => rem_inWord ha _
  | jmp n =>
    rw [exec_jmp] at h
    by_cases hn : n < capacity
    · rw [jumpIf_taken hn, retire_jumped, Host.Outcome.next.injEq] at h
      exact h ▸ .jump _ n (.inl rfl) hn
    · rw [jumpIf_outOfBounds hn, retire_outOfBounds, Host.Outcome.next.injEq] at h
      exact h ▸ .outOfBounds (.jmp n) hn
  | jz n =>
    rw [exec_jz] at h
    by_cases hn : n < capacity
    · by_cases hz : s.acc = 0
      · rw [accIsZero_of_zero hz, jumpIf_taken hn, retire_jumped, Host.Outcome.next.injEq] at h
        exact h ▸ .jump _ n (.inr ⟨rfl, hz⟩) hn
      · rw [accIsZero_of_ne hz, jumpIf_notTaken hn, retire_success, Host.Outcome.next.injEq] at h
        exact h ▸ .fallThrough n hz
    · rw [jumpIf_outOfBounds hn, retire_outOfBounds, Host.Outcome.next.injEq] at h
      exact h ▸ .outOfBounds (.jz n) hn
  | halt n => rw [exec_halt, retire_explicitHalt, Host.Outcome.next.injEq] at h; exact h ▸ .explicitHalt n
  | setA n =>
    rw [exec_setA] at h
    refine effect_withOperand rfl h fun hn h => ?_
    rw [retire_success, Host.Outcome.next.injEq] at h
    exact h ▸ .setA n hn
  | setB n =>
    rw [exec_setB] at h
    refine effect_withOperand rfl h fun hn h => ?_
    rw [retire_success, Host.Outcome.next.injEq] at h
    exact h ▸ .setB n hn
  | flat n => rw [exec_flat, retire_success, Host.Outcome.next.injEq] at h; exact h ▸ .flat n
  | and n => rw [exec_and] at h; exact effect_storeOperand (n := n) (by simp) rfl (fun hb _ _ _ _ => bitAnd_inWord hb _ _) h
  | or n => rw [exec_or] at h; exact effect_storeOperand (n := n) (by simp) rfl (fun hb _ _ _ _ => bitOr_inWord hb _ _) h
  | xor n => rw [exec_xor] at h; exact effect_storeOperand (n := n) (by simp) rfl (fun hb _ _ _ _ => bitXor_inWord hb _ _) h
  | not n => rw [exec_not] at h; exact effect_storeOperand (n := n) (by simp) rfl (fun hb _ _ _ _ => bitNot_inWord hb _) h

end Sys2Proof.Machine
end

