-- ==== Sys2Proof/Laws/PerInstr.lean ====
section
/-! SUPPORT. The family FieldsOfEncode: the pair that the word of an instruction decodes to is its opcode and operand
(spec/30_encoding.md R61), one lemma per constructor. -/

namespace Sys2Proof.Laws.FieldsOfEncode

/-- The word of a well-formed instruction is a four-digit word whose digit pairs are the opcode and the operand. -/
def Statement (i : Instr) : Prop :=
  i.wellFormed = true → decodeFields (encode i) = some (i.opcode, i.operand)

/-- The digit pairs of `op*100 + n`. -/
theorem fields_of_word {op n : Nat} (ho : op < 100) (hn : n < 100) :
    decodeFields ((op * 100 + n : Nat) : Int) = some (op, n) := by
  have h1 : (op * 100 + n) / 100 = op := by omega
  have h2 : (op * 100 + n) % 100 = n := by omega
  have h3 : (0 : Int) ≤ ((op * 100 + n : Nat) : Int) ∧ ((op * 100 + n : Nat) : Int) ≤ 9999 := by omega
  rw [decodeFields, if_pos h3, Int.toNat_natCast, h1, h2]

theorem statement_of_opcode {i : Instr} (h : i.opcode < 100) : Statement i := fun hw =>
  fields_of_word h (by simpa [Instr.wellFormed] using hw)

theorem nop (n : Nat) : Statement (.nop n) := statement_of_opcode (by simp [Instr.opcode])
theorem input (n : Nat) : Statement (.input n) := statement_of_opcode (by simp [Instr.opcode])
theorem output (n : Nat) : Statement (.output n) := statement_of_opcode (by simp [Instr.opcode])
theorem load (n : Nat) : Statement (.load n) := statement_of_opcode (by simp [Instr.opcode])
theorem store (n : Nat) : Statement (.store n) := statement_of_opcode (by simp [Instr.opcode])
theorem add (n : Nat) : Statement (.add n) := statement_of_opcode (by simp [Instr.opcode])
theorem sub (n : Nat) : Statement (.sub n) := statement_of_opcode (by simp [Instr.opcode])
theorem mul (n : Nat) : Statement (.mul n) := statement_of_opcode (by simp [Instr.opcode])
theorem div (n : Nat) : Statement (.div n) := statement_of_opcode (by simp [Instr.opcode])
theorem mod (n : Nat) : Statement (.mod n) := statement_of_opcode (by simp [Instr.opcode])
theorem jmp (n : Nat) : Statement (.jmp n) := statement_of_opcode (by simp [Instr.opcode])
theorem jz (n : Nat) : Statement (.jz n) := statement_of_opcode (by simp [Instr.opcode])
theorem halt (n : Nat) : Statement (.halt n) := statement_of_opcode (by simp [Instr.opcode])
theorem setA (n : Nat) : Statement (.setA n) := statement_of_opcode (by simp [Instr.opcode])
theorem setB (n : Nat) : Statement (.setB n) := statement_of_opcode (by simp [Instr.opcode])
theorem flat (n : Nat) : Statement (.flat n) := statement_of_opcode (by simp [Instr.opcode])
theorem and (n : Nat) : Statement (.and n) := statement_of_opcode (by simp [Instr.opcode])
theorem or (n : Nat) : Statement (.or n) := statement_of_opcode (by simp [Instr.opcode])
theorem xor (n : Nat) : Statement (.xor n) := statement_of_opcode (by simp [Instr.opcode])
theorem not (n : Nat) : Statement (.not n) := statement_of_opcode (by simp [Instr.opcode])

end Sys2Proof.Laws.FieldsOfEncode
end

