-- ==== Sys2Proof/Laws/Step.lean ====
section
/-! SUPPORT. What the step can do, said once (spec/40_control.md R82), and the package of its induction. -/

namespace Sys2Proof.Machine

variable {s t : State}

/-- A halted machine. -/
theorem step_halted (h : s.run = .halted) : step s = .next s := by simp [step, stepWith, h]

/-- The program-counter check fails. -/
theorem step_endOfProgram (h : s.run = .running) (hb : ¬ s.pc < capacity) :
    step s = .next (s.haltSignal .endOfProgram) := by simp [step, stepWith, h, hb]

/-- The fetched word is illegal. -/
theorem step_invalid (h : s.run = .running) (hb : s.pc < capacity) (hd : decode (s.mem.read s.pc) = none) :
    step s = .next ((s.setIr (s.mem.read s.pc)).haltSignal .invalidOpcode) := by
  simp [step, stepWith, fetchExecute, fetchWord, h, hb, hd]

/-- The fetched instruction waits for input. -/
theorem step_held {i : Instr} (h : s.run = .running) (hb : s.pc < capacity)
    (hd : decode (s.mem.read s.pc) = some i) (hw : awaitsInput s i = true) : step s = .next s := by
  simp [step, stepWith, fetchExecute, fetchWord, h, hb, hd, hw]

/-- The fetched instruction runs. -/
theorem step_exec {i : Instr} (h : s.run = .running) (hb : s.pc < capacity)
    (hd : decode (s.mem.read s.pc) = some i) (hw : awaitsInput s i = false) :
    step s = exec i (s.setIr (s.mem.read s.pc)) := by
  simp [step, stepWith, fetchExecute, fetchWord, h, hb, hd, hw]

/-- Every state is in exactly one of the five cases of the step. -/
theorem step_cases (s : State) :
    s.run = .halted
    ∨ (s.run = .running ∧ ¬ s.pc < capacity)
    ∨ (s.run = .running ∧ s.pc < capacity ∧ decode (s.mem.read s.pc) = none)
    ∨ (∃ i, s.run = .running ∧ s.pc < capacity ∧ decode (s.mem.read s.pc) = some i ∧ awaitsInput s i = true)
    ∨ (∃ i, s.run = .running ∧ s.pc < capacity ∧ decode (s.mem.read s.pc) = some i ∧ awaitsInput s i = false) := by
  cases hr : s.run
  · by_cases hb : s.pc < capacity
    · cases hd : decode (s.mem.read s.pc) with
      | none => simp [hb]
      | some i => cases hw : awaitsInput s i <;> simp [hb, hw]
    · simp [hb]
  · simp

/-- THE inversion lemma of the step: what holds when it answers `next t`. -/
theorem step_next (h : step s = .next t) :
    t = s
    ∨ (s.run = .running ∧ ¬ s.pc < capacity ∧ t = s.haltSignal .endOfProgram)
    ∨ (s.run = .running ∧ s.pc < capacity ∧ decode (s.mem.read s.pc) = none ∧
        t = (s.setIr (s.mem.read s.pc)).haltSignal .invalidOpcode)
    ∨ (∃ i, s.run = .running ∧ s.pc < capacity ∧ decode (s.mem.read s.pc) = some i ∧ awaitsInput s i = false ∧
        exec i (s.setIr (s.mem.read s.pc)) = .next t) := by
  obtain h1 | ⟨h1, h2⟩ | ⟨h1, h2, h3⟩ | ⟨i, h1, h2, h3, h4⟩ | ⟨i, h1, h2, h3, h4⟩ := step_cases s
  · rw [step_halted h1, Host.Outcome.next.injEq] at h; exact .inl h.symm
  · rw [step_endOfProgram h1 h2, Host.Outcome.next.injEq] at h; exact .inr (.inl ⟨h1, h2, h.symm⟩)
  · rw [step_invalid h1 h2 h3, Host.Outcome.next.injEq] at h; exact .inr (.inr (.inl ⟨h1, h2, h3, h.symm⟩))
  · rw [step_held h1 h2 h3 h4, Host.Outcome.next.injEq] at h; exact .inl h.symm
  · rw [step_exec h1 h2 h3 h4] at h; exact .inr (.inr (.inr ⟨i, h1, h2, h3, h4, h⟩))

/-- What holds of a state, and of the next one whenever it holds of a state, holds of every state reached. -/
theorem reaches_induction {P : State → Prop} (hstep : ∀ a b, P a → step a = .next b → P b)
    (h : Reaches s t) (h0 : P s) : P t := by
  induction h with
  | refl => exact h0
  | tail _ hs ih => exact hstep _ _ ih hs

end Sys2Proof.Machine
end

