-- ==== Sys2Proof/Tests/Slice0.lean ====
section
/-! SUPPORT. Tests of one step each, with expected results from spec/95_test_vectors.md, the smoke test of WellFormed, the
decoding of every constructor from a word written out from spec/30_encoding.md R66, and, last, a witness for each statement
of Certificates/Slice0/Obligations.lean that has hypotheses. -/

namespace Sys2Proof.Tests

open Sys2Proof Sys2Proof.Machine

/-! ## Helpers -/

/-- Test codes, all different. -/
def codes : SignalCodes := ⟨1, 2, 3, 4, 5⟩

/-- The spec's defaults with the test codes. -/
def params : Params := ⟨32, .undefined, .other, codes⟩

/-- A constructed machine whose unwritten words all read 77. -/
def base : State := State.construct params (Vector.replicate capacity 77) []

/-- `s` with words in memory. -/
def withWords (s : State) (cells : List WordCell) : State :=
  { s with mem := cells.foldl (fun m c => m.write c.1 c.2) s.mem }

/-- `base` with words in memory and registers set. -/
def mach (cells : List WordCell) (pc : Nat) (acc auxA auxB : Int) : State :=
  withWords { base with pc := pc, acc := acc, auxA := auxA, auxB := auxB } cells

/-- `s` under the other value of each policy. -/
def otherPolicies (s : State) : State := { s with params := ⟨32, .wrap, .undefined, codes⟩ }

/-- `s` with answers waiting. -/
def withAnswers (s : State) (l : List InputAnswer) : State := { s with input := l }

/-- The outcome is a next state of which `p` is true. -/
def after (o : Host.Outcome State Fault Refusal) (p : State → Bool) : Bool :=
  match o with
  | .next t => p t
  | .fault _ => false
  | .refused _ => false

/-- The outcome is a fault of which `p` is true. -/
def faultsWith (o : Host.Outcome State Fault Refusal) (p : Fault → Bool) : Bool :=
  match o with
  | .next _ => false
  | .fault f => p f
  | .refused _ => false

/-- The fault is `Undefined(overflow)`, and `p` is true of the state it leaves. -/
def overflowAnd (p : State → Bool) : Fault → Bool
  | .undefinedOverflow s => p s
  | .undefinedDivideByZero _ => false

/-- The fault is `Undefined(divide_by_zero)`, and `p` is true of the state it leaves. -/
def divideByZeroAnd (p : State → Bool) : Fault → Bool
  | .undefinedOverflow _ => false
  | .undefinedDivideByZero s => p s

/-- The fault is `Undefined(overflow)`. -/
def overflow : Fault → Bool := overflowAnd fun _ => true

/-- The fault is `Undefined(divide_by_zero)`. -/
def divideByZero : Fault → Bool := divideByZeroAnd fun _ => true

/-- A test of a next state as a statement about one. -/
theorem exists_of_after {o : Host.Outcome State Fault Refusal} {p : State → Bool} (h : after o p = true) :
    ∃ t, o = .next t ∧ p t = true := by
  cases o with
  | next t => exact ⟨t, rfl, h⟩
  | fault _ => cases h
  | refused _ => cases h

/-- A test of a fault as a statement about one. -/
theorem exists_fault_of {o : Host.Outcome State Fault Refusal} {p : Fault → Bool} (h : faultsWith o p = true) :
    ∃ f, o = .fault f ∧ p f = true := by
  cases o with
  | next _ => cases h
  | fault f => exact ⟨f, rfl, h⟩
  | refused _ => cases h

/-- Step `s` with `acc` in place and `y` at address 99: the shape of the arithmetic table. -/
def arith (word acc y : Int) : State := mach [(0, word), (99, y)] 0 acc 0 0

/-- Step with the auxiliary registers in place: the shape of the extended table. -/
def extend (word auxA auxB : Int) : State := mach [(0, word), (99, -5)] 0 0 auxA auxB

/-! ## WellFormed (spec/30_encoding.md R61): the one check refuses an operand that two digits cannot write -/

theorem test_wellFormed_refuses_100 :
    ([Instr.nop 100, .input 100, .output 100, .load 100, .store 100, .add 100, .sub 100, .mul 100, .div 100, .mod 100,
      .jmp 100, .jz 100, .halt 100, .setA 100, .setB 100, .flat 100, .and 100, .or 100, .xor 100, .not 100].any
      Instr.wellFormed) = false := by decide

theorem test_wellFormed_accepts_99 : (Instr.load 99).wellFormed = true ∧ (Instr.nop 0).wellFormed = true := by decide

/-! ## Decode: words written out digit by digit, opcode d3d2 of R66 and operand d1d0 -/

theorem test_decode_control :
    decode 20 = some (.nop 20) ∧ decode 4005 = some (.jmp 5) ∧ decode 4299 = some (.jz 99) ∧
    decode 4407 = some (.halt 7) := by decide

theorem test_decode_io : decode 1013 = some (.input 13) ∧ decode 1234 = some (.output 34) := by decide

theorem test_decode_arithmetic :
    decode 2010 = some (.load 10) ∧ decode 2212 = some (.store 12) ∧ decode 3011 = some (.add 11) ∧
    decode 3201 = some (.sub 1) ∧ decode 3450 = some (.mul 50) ∧ decode 3604 = some (.div 4) ∧
    decode 3809 = some (.mod 9) := by decide

theorem test_decode_extended :
    decode 5000 = some (.setA 0) ∧ decode 5201 = some (.setB 1) ∧ decode 5477 = some (.flat 77) ∧
    decode 6030 = some (.and 30) ∧ decode 6231 = some (.or 31) ∧ decode 6432 = some (.xor 32) ∧
    decode 6699 = some (.not 99) := by decide

/-- The decoder's closed output of R72: a kind with its operand, or `invalid`. -/
theorem test_decodeWord : decodeWord 1234 = .output 34 ∧ decodeWord 5600 = .invalid ∧ decodeWord (-1) = .invalid := by decide

/-- The illegal words of the decoder table of 95_test_vectors.md part 2. -/
theorem test_decode_illegal :
    ([100, 1100, 2199, 3999, 4100, 5600, 6700, 7000, 9900, 9999, 10000, -1, -101].all
      fun w => (decode w).isNone) = true := by decide

theorem test_encode : encode (.output 34) = 1234 ∧ encode (.nop 20) = 20 ∧ encode (.not 99) = 6699 := by decide

theorem test_decodeTableWord :
    decodeTableWord 16 2010 = some (.load 10) ∧ decodeTableWord 8 99 = some (.nop 99) ∧
    decodeTableWord 32 4294967295 = none := by decide

/-- A placed word is the one the next step runs. -/
theorem test_withFetchWord : after (step (State.reset.withFetchWord 16 4009)) (fun t => decide (t.pc = 9)) = true := by
  decide

/-! ## Control unit -/

theorem test_nop : after (step (mach [(127, 42)] 127 0 0 0)) (fun t => decide (t.pc = 128 ∧ t.ir = 42)) = true := by
  decide

theorem test_end_of_program : after (step (mach [] 128 0 0 0)) (fun t =>
    decide (t.run = .halted ∧ t.term = some ⟨2, .endOfProgram⟩ ∧ t.pc = 128 ∧ t.ir = 0)) = true := by decide

theorem test_jmp : after (step (mach [(2, 4000)] 2 5 0 0)) (fun t => decide (t.pc = 0)) = true := by decide

theorem test_jz_taken : after (step (mach [(4, 4299)] 4 0 0 0)) (fun t => decide (t.pc = 99)) = true := by decide

theorem test_jz_not_taken : after (step (mach [(4, 4200)] 4 (-2147483648) 0 0)) (fun t => decide (t.pc = 5)) = true := by
  decide

theorem test_halt : after (step (mach [(7, 4499)] 7 0 0 0)) (fun t =>
    decide (t.run = .halted ∧ t.term = some ⟨99, .explicitHalt⟩ ∧ t.pc = 7)) = true := by decide

theorem test_status : stepStatus (arith 3099 5 3) = .continued ∧ stepStatus (arith 3099 2147483647 1) = .fault := by
  decide

theorem test_halted_stays : stepStatus (mach [(7, 4407)] 7 0 0 0) = .stopped ∧
    stepStatus { base with run := .halted } = .alreadyStopped := by decide

theorem test_illegal : after (step (mach [(3, 100)] 3 9 0 0)) (fun t =>
    decide (t.term = some ⟨4, .invalidOpcode⟩ ∧ t.pc = 3 ∧ t.ir = 100 ∧ t.acc = 9)) = true := by decide

/-! ## Arithmetic unit -/

theorem test_load : after (step (arith 2099 0 (-17))) (fun t => decide (t.acc = -17 ∧ t.pc = 1)) = true := by decide

theorem test_store : after (step (arith 2299 8 1)) (fun t =>
    decide (t.acc = 8 ∧ t.mem.read 99 = 8 ∧ t.mem.read 98 = 77)) = true := by decide

/-- Storing the word the draw gives unlists the address: equal memories are equal data. -/
theorem test_store_canonical : after (step (arith 2299 77 1)) (fun t =>
    decide (t.mem.cells = [(0, 2299)] ∧ t.mem.wf = true)) = true := by decide

theorem test_add : after (step (arith 3099 5 3)) (fun t => decide (t.acc = 8)) = true := by decide

theorem test_add_overflow : faultsWith (step (arith 3099 2147483647 1)) overflow = true ∧
    after (step (otherPolicies (arith 3099 2147483647 1))) (fun t => decide (t.acc = -2147483648)) = true := by decide

/-- R157: a fault leaves the state as it was before the instruction, except for ir. -/
theorem test_fault_is_precise : faultsWith (step (arith 3099 2147483647 1)) (overflowAnd fun t =>
    decide (t.acc = 2147483647 ∧ t.pc = 0 ∧ t.ir = 3099 ∧ t.run = .running ∧ t.term = none)) = true ∧
    faultsWith (step (otherPolicies (arith 3699 7 0))) (divideByZeroAnd fun t =>
      decide (t.acc = 7 ∧ t.ir = 3699)) = true := by decide

theorem test_sub : after (step (arith 3299 3 1)) (fun t => decide (t.acc = 2)) = true := by decide

theorem test_sub_overflow : faultsWith (step (arith 3299 0 (-2147483648))) overflow = true ∧
    after (step (otherPolicies (arith 3299 0 (-2147483648)))) (fun t => decide (t.acc = -2147483648)) = true := by
  decide

theorem test_mul : after (step (arith 3499 (-6) 7)) (fun t => decide (t.acc = -42)) = true := by decide

theorem test_mul_overflow : faultsWith (step (arith 3499 65536 65536)) overflow = true ∧
    after (step (otherPolicies (arith 3499 65536 65536))) (fun t => decide (t.acc = 0)) = true := by decide

theorem test_div : after (step (arith 3699 (-7) 2)) (fun t => decide (t.acc = -3)) = true ∧
    after (step (otherPolicies (arith 3699 (-2147483648) (-1)))) (fun t => decide (t.acc = -2147483648)) = true := by
  decide

theorem test_div_by_zero : after (step (arith 3699 7 0)) (fun t =>
      decide (t.run = .halted ∧ t.term = some ⟨5, .other⟩ ∧ t.acc = 7 ∧ t.pc = 0)) = true ∧
    faultsWith (step (otherPolicies (arith 3699 7 0))) divideByZero = true := by decide

theorem test_mod : after (step (arith 3899 7 (-2))) (fun t => decide (t.acc = 1)) = true ∧
    after (step (arith 3899 (-7) 2)) (fun t => decide (t.acc = -1)) = true := by decide

theorem test_mod_corners : after (step (arith 3899 0 0)) (fun t => decide (t.term = some ⟨5, .other⟩)) = true ∧
    faultsWith (step (arith 3899 (-2147483648) (-1))) overflow = true ∧
    after (step (otherPolicies (arith 3899 (-2147483648) (-1)))) (fun t => decide (t.acc = 0)) = true := by decide

/-! ## Extended unit -/

theorem test_setA : after (step (extend 5099 1 2)) (fun t => decide (t.auxA = -5 ∧ t.auxB = 2)) = true := by decide

theorem test_setB : after (step (extend 5299 1 2)) (fun t => decide (t.auxA = 1 ∧ t.auxB = -5)) = true := by decide

theorem test_flat : after (step (extend 5477 (-3) (-4))) (fun t => decide (t.auxA = 1 ∧ t.auxB = 0)) = true := by decide

theorem test_flat_extremes : after (step (extend 5400 (-2147483648) 2147483647)) (fun t =>
    decide (t.auxA = 0 ∧ t.auxB = 1)) = true := by decide

theorem test_and : after (step (extend 6099 6 3)) (fun t => decide (t.mem.read 99 = 2 ∧ t.acc = 0)) = true ∧
    after (step (extend 6099 (-1) 12345)) (fun t => decide (t.mem.read 99 = 12345)) = true := by decide

theorem test_or : after (step (extend 6299 6 3)) (fun t => decide (t.mem.read 99 = 7)) = true ∧
    after (step (extend 6299 0 (-1))) (fun t => decide (t.mem.read 99 = -1)) = true := by decide

theorem test_xor : after (step (extend 6499 6 3)) (fun t => decide (t.mem.read 99 = 5)) = true ∧
    after (step (extend 6499 5 5)) (fun t => decide (t.mem.read 99 = 0)) = true := by decide

theorem test_not : after (step (extend 6699 6 3)) (fun t => decide (t.mem.read 99 = -7)) = true ∧
    after (step (extend 6699 2147483647 3)) (fun t => decide (t.mem.read 99 = -2147483648)) = true := by decide

/-! ## I/O unit -/

/-- IN 13 at address 0. -/
def inState (l : List InputAnswer) : State := withAnswers (mach [(0, 1013)] 0 0 0 0) l

theorem test_in : after (step (inState [.value (-101), .endOfInput])) (fun t =>
    decide (t.mem.read 13 = -101 ∧ t.input = [.endOfInput] ∧ t.pc = 1)) = true := by decide

theorem test_in_error : ([InputAnswer.nonNumeric, .endOfInput, .value 2147483648].all fun a =>
    after (step (inState [a])) (fun t => decide (t.term = some ⟨5, .other⟩ ∧ t.mem.read 13 = 77 ∧ t.pc = 0))) = true := by
  decide

theorem test_in_held : after (step (inState [])) (fun t =>
      decide (t.pc = 0 ∧ t.ir = 0 ∧ t.run = .running ∧ t.mem.cells = [(0, 1013)])) = true ∧
    stepStatus (inState []) = .held := by decide

theorem test_out : after (step (mach [(0, 1201), (1, 2)] 0 0 0 0)) (fun t =>
    decide (t.output = [2] ∧ t.mem.read 1 = 2)) = true := by decide

/-! ## Loader: the table of 95_test_vectors.md part 2 -/

/-- Load a source text into `base`, and test the machine. -/
def loads (source : String) (p : State → Bool) : Bool :=
  match base.load (tokens source.toList) with
  | some t => p t
  | none => false

theorem test_load_three_segments : loads "5 -101 9 9 -101 1200 1202" (fun t =>
    decide (t.pc = 3 ∧ [0, 1, 2, 3, 4, 5].map t.mem.read = [5, 9, 9, 1200, 1202, 77])) = true := by decide

theorem test_load_few_sentinels : loads "7 -101 4400" (fun t =>
    decide (t.pc = 0 ∧ t.mem.read 0 = 7 ∧ t.mem.read 1 = 4400)) = true := by decide

theorem test_load_third_sentinel : loads "-101 -101 4407 -101 4401" (fun t =>
    decide (t.pc = 0 ∧ t.mem.read 0 = 4407 ∧ t.mem.read 1 = 77)) = true := by decide

theorem test_load_fails : loads "-101 -101 12a" (fun _ => true) = false ∧
    loads "-101 -101 4294967296" (fun _ => true) = false := by decide

/-! ## Witnesses: states and operands that meet the hypotheses of each statement, each clause at a boundary -/

/-- The two bounds checks most statements assume, at 0 and at the last address, and the one that fails, at 128. -/
theorem witness_checkBound : checkBound (0 : Nat) = true ∧ checkBound (99 : Nat) = true ∧ checkBound (127 : Nat) = true ∧
    checkBound (128 : Nat) = false := by decide

theorem witness_DecodeOfEncodeReturnsTheInstruction : (Instr.not 99).wellFormed = true ∧ (Instr.nop 0).wellFormed = true := by
  decide

theorem witness_EncodeOfDecodeReturnsTheWord : decode 0 = some (.nop 0) ∧ decode 6699 = some (.not 99) := by decide

/-- A word below 0, one above 9999, and one with an illegal opcode. -/
theorem witness_IllegalWordsHaltWithInvalidOpcode :
    ([-1, 10000, 100].all fun w =>
      decide ((mach [(127, w)] 127 0 0 0).run = .running) && checkBound (mach [(127, w)] 127 0 0 0).pc &&
      decide ((mach [(127, w)] 127 0 0 0).mem.read 127 = w)) = true ∧
    (-1 : Int) < 0 ∧ (9999 : Int) < 10000 ∧ illegalOpcode ((100 : Int).toNat / 100) = true := by decide

theorem witness_DecimalDigitsGiveOpcodeAndOperand : (0 : Nat) < 10 ∧ (9 : Nat) < 10 := by decide

theorem witness_NopOnlyAdvancesPc : (99 : Nat) ≤ 99 ∧ (mach [] 127 0 0 0).run = .running ∧ (mach [] 127 0 0 0).pc = 127 ∧
    after (exec (.nop 0) (mach [] 127 0 0 0)) (fun t => decide (t.pc = 128)) = true := by decide

/-- The bounds, and JMP 99 at address 99. -/
theorem witness_JmpSetsPcToTheOperand : checkBound (127 : Nat) = true ∧ checkBound (128 : Nat) = false ∧
    ((mach [(99, 4099)] 99 0 0 0).run = .running ∧ (mach [(99, 4099)] 99 0 0 0).pc = 99 ∧ checkBound (99 : Nat) = true ∧
      decode ((mach [(99, 4099)] 99 0 0 0).mem.read 99) = some (.jmp 99)) := by decide

theorem witness_JzJumpsExactlyWhenAccIsZero :
    (checkBound (127 : Nat) = true ∧ base.acc = 0) ∧ (checkBound (0 : Nat) = true ∧ (mach [] 0 (-1) 0 0).acc ≠ 0) ∧
    checkBound (128 : Nat) = false ∧
    ((mach [(0, 4200)] 0 0 0 0).run = .running ∧ (mach [(0, 4200)] 0 0 0 0).pc = 0 ∧ (mach [(0, 4200)] 0 0 0 0).acc = 0 ∧
      decode ((mach [(0, 4200)] 0 0 0 0).mem.read 0) = some (.jz 0)) := by decide

/-- The operand bounds, and a step that records HALT 99 and one that records a zero divisor. -/
theorem witness_HaltRecordsItsOperand : ((0 : Nat) ≤ 99 ∧ (99 : Nat) ≤ 99) ∧
    ((mach [(0, 4499)] 0 0 0 0).run = .running ∧ (mach [(0, 4499)] 0 0 0 0).term = none ∧
      after (step (mach [(0, 4499)] 0 0 0 0)) (fun t => decide (t.term = some ⟨99, .explicitHalt⟩)) = true) ∧
    ((arith 3699 7 0).run = .running ∧ (arith 3699 7 0).term = none ∧
      after (step (arith 3699 7 0)) (fun t => decide (t.term = some ⟨5, .other⟩)) = true) := by decide

theorem witness_LoadCopiesTheWordToAcc : checkBound (127 : Nat) = true ∧ checkBound (128 : Nat) = false ∧ 127 < capacity := by
  decide

theorem witness_StoreWritesAccToMemory : (checkBound (127 : Nat) = true ∧ (126 : Nat) ≠ 127) ∧
    checkBound (128 : Nat) = false := by decide

/-- The sum WMAX, the sum WMAX + 1 under each policy, and an address out of bounds. -/
theorem witness_AddWritesTheExactSum :
    (checkBound (99 : Nat) = true ∧ inWord 32 ((arith 0 2147483646 1).acc + (arith 0 2147483646 1).mem.read 99) = true) ∧
    (inWord 32 ((arith 0 2147483647 1).acc + (arith 0 2147483647 1).mem.read 99) = false ∧
      (otherPolicies (arith 0 2147483647 1)).params.overflow = .wrap ∧
      (arith 0 2147483647 1).params.overflow = .undefined) ∧
    checkBound (128 : Nat) = false ∧ 16 ≤ (16 : Nat) := by decide

/-- The difference WMIN, and 0 - WMIN under each policy. -/
theorem witness_SubWritesTheExactDifference :
    (checkBound (99 : Nat) = true ∧ inWord 32 ((arith 0 (-2147483647) 1).acc - (arith 0 (-2147483647) 1).mem.read 99) = true) ∧
    (inWord 32 ((arith 0 0 (-2147483648)).acc - (arith 0 0 (-2147483648)).mem.read 99) = false ∧
      (otherPolicies (arith 0 0 (-2147483648))).params.overflow = .wrap ∧
      (arith 0 0 (-2147483648)).params.overflow = .undefined) ∧
    checkBound (128 : Nat) = false := by decide

/-- The product WMIN, and 2^32 under each policy. -/
theorem witness_MulWritesTheExactProduct :
    (checkBound (99 : Nat) = true ∧ inWord 32 ((arith 0 (-65536) 32768).acc * (arith 0 (-65536) 32768).mem.read 99) = true) ∧
    (inWord 32 ((arith 0 65536 65536).acc * (arith 0 65536 65536).mem.read 99) = false ∧
      (otherPolicies (arith 0 65536 65536)).params.overflow = .wrap ∧
      (arith 0 65536 65536).params.overflow = .undefined) ∧
    checkBound (128 : Nat) = false := by decide

/-- WMIN / 1, WMIN / -1 under each policy, a zero divisor under each policy. -/
theorem witness_DivWritesTheQuotientTowardZero :
    (checkBound (99 : Nat) = true ∧ (arith 0 (-2147483648) 1).mem.read 99 ≠ 0 ∧
      inWord 32 (quot (arith 0 (-2147483648) 1).acc ((arith 0 (-2147483648) 1).mem.read 99)) = true) ∧
    ((arith 0 (-2147483648) (-1)).mem.read 99 ≠ 0 ∧
      inWord 32 (quot (arith 0 (-2147483648) (-1)).acc ((arith 0 (-2147483648) (-1)).mem.read 99)) = false ∧
      (otherPolicies (arith 0 (-2147483648) (-1))).params.overflow = .wrap ∧
      (arith 0 (-2147483648) (-1)).params.overflow = .undefined) ∧
    ((arith 0 7 0).mem.read 99 = 0 ∧ (arith 0 7 0).params.divZero = .other ∧
      (otherPolicies (arith 0 7 0)).params.divZero = .undefined) ∧
    checkBound (128 : Nat) = false ∧
    (16 ≤ (16 : Nat) ∧ inWord 16 (-32768) = true ∧ inWord 16 (-1) = true ∧ (-1 : Int) ≠ 0) := by decide

/-- WMIN rem 1, WMIN rem -1 under each policy, a zero divisor under each policy. -/
theorem witness_ModWritesTheRemainder :
    (checkBound (99 : Nat) = true ∧ (arith 0 (-2147483648) 1).mem.read 99 ≠ 0 ∧
      ¬ ((arith 0 (-2147483648) 1).acc = wmin 32 ∧ (arith 0 (-2147483648) 1).mem.read 99 = -1)) ∧
    ((arith 0 (-2147483648) (-1)).acc = wmin 32 ∧ (arith 0 (-2147483648) (-1)).mem.read 99 = -1 ∧
      (otherPolicies (arith 0 (-2147483648) (-1))).params.overflow = .wrap ∧
      (arith 0 (-2147483648) (-1)).params.overflow = .undefined) ∧
    ((arith 0 7 0).mem.read 99 = 0 ∧ (arith 0 7 0).params.divZero = .other ∧
      (otherPolicies (arith 0 7 0)).params.divZero = .undefined) ∧
    checkBound (128 : Nat) = false := by decide

theorem witness_QuotientRoundsTowardZero : (2 : Int) ≠ 0 ∧ (0 : Int) ≤ -7 * -2 ∧ (-7 : Int) * 2 ≤ 0 := by decide

/-- The least WORD_BITS that R9 admits, and the highest bit there: the hypotheses of the clauses over every width, those of
FlatKeepsBitZeroOfBothRegisters, DivisionTableOfR112 and BitwiseOperationsActBitByBit among them. -/
theorem witness_wordBits : 16 ≤ (16 : Nat) ∧ 15 < (16 : Nat) ∧ inWord 16 (-32768) = true ∧ inWord 16 32767 = true := by
  decide

theorem witness_SetRegisterCopiesTheWord : checkBound (0 : Nat) = true ∧ checkBound (128 : Nat) = false := by decide

theorem witness_BitwiseResultGoesToMemory : checkBound (127 : Nat) = true ∧
    (checkBound (128 : Nat) = false ∧ Instr.xor 128 ∈ [Instr.and 128, .or 128, .xor 128]) ∧ (126 : Nat) ≠ 127 := by decide

theorem witness_NotWritesTheComplementOfAuxA :
    (checkBound (127 : Nat) = true ∧ (0 : Nat) ≠ 127) ∧ checkBound (128 : Nat) = false ∧
    (16 ≤ (16 : Nat) ∧ inWord 16 (-32768) = true) := by decide

theorem witness_WrapIsTheOnlyCongruentWord : 16 ≤ (16 : Nat) ∧ inWord 16 (-32768) = true ∧
    (2 ^ 16 : Int) ∣ 32768 - -32768 := by decide

/-- An answer at WMAX, each kind of error (an integer past WMAX among them), and no answer. -/
theorem witness_InStoresTheAnswerOrHalts :
    (checkBound (0 : Nat) = true ∧ (inState [.value 2147483647]).input = .value 2147483647 :: [] ∧
      inWord 32 2147483647 = true) ∧
    ((inState [.nonNumeric]).input = .nonNumeric :: [] ∧ (inState [.endOfInput]).input = .endOfInput :: [] ∧
      (inState [.value 2147483648]).input = .value 2147483648 :: [] ∧ inWord 32 2147483648 = false) ∧
    (inState []).input = [] ∧ checkBound (128 : Nat) = false := by decide

theorem witness_OutSendsTheWord : checkBound (127 : Nat) = true ∧ checkBound (128 : Nat) = false ∧ 127 < capacity := by
  decide

/-- Each form that stores nothing answers a next state. -/
theorem witness_FrameOfFormsThatStoreNothing :
    ([Instr.nop 99, .output 99, .load 99, .add 99, .sub 99, .mul 99, .div 99, .mod 99, .jmp 99, .jz 99, .halt 99,
      .setA 99, .setB 99, .flat 99].all fun i => after (exec i (arith 0 6 3)) fun _ => true) = true := by decide

/-- Each storing form answers a next state in which the word at its operand has changed. -/
theorem witness_FrameOfStoringForms :
    ([Instr.store 5, .and 5, .or 5, .xor 5, .not 5, .input 5].all fun i =>
      after (exec i (withAnswers (mach [] 0 1 6 3) [.value 9])) fun t => decide (t.mem.read 5 ≠ 77)) = true := by decide

/-- Steps that change acc, auxA, auxB, memory (the word at the operand) and the output, and one from a halted state. -/
theorem witness_StepsChangeOnlyWhatR33Lists :
    (∃ t, step (arith 2099 0 (-17)) = .next t ∧ decide (t.acc ≠ 0) = true) ∧
    (∃ t, step (extend 5099 1 2) = .next t ∧ decide (t.auxA ≠ 1) = true) ∧
    (∃ t, step (extend 5299 1 2) = .next t ∧ decide (t.auxB ≠ 2) = true) ∧
    (∃ t, step (extend 6099 6 3) = .next t ∧ decide (t.mem.read 99 ≠ (extend 6099 6 3).mem.read 99) = true) ∧
    (∃ t, step (arith 1299 0 5) = .next t ∧ decide (t.output ≠ []) = true) ∧
    (∃ t, step { base with run := .halted } = .next t ∧ decide (t.run = .halted) = true) :=
  ⟨exists_of_after (by decide), exists_of_after (by decide), exists_of_after (by decide), exists_of_after (by decide),
    exists_of_after (by decide), exists_of_after (by decide)⟩

/-- The clauses on pc: a step that halts, one held, JMP, JZ taken and JZ not taken at 127, and the last address. -/
theorem witness_pc_of_StepsChangeOnlyWhatR33Lists :
    after (step (mach [(7, 4499)] 7 0 0 0)) (fun t => decide (t.run = .halted ∧ t.pc = 7)) = true ∧
    isHeld (inState []) = true ∧
    (isHeld (mach [(2, 4000)] 2 5 0 0) = false ∧
      after (step (mach [(2, 4000)] 2 5 0 0)) (fun t => decide (t.run = .running ∧ t.pc = 0)) = true) ∧
    (isHeld (mach [(4, 4299)] 4 0 0 0) = false ∧
      after (step (mach [(4, 4299)] 4 0 0 0)) (fun t => decide (t.run = .running ∧ t.pc = 99)) = true) ∧
    (isHeld (mach [(127, 4299)] 127 (-1) 0 0) = false ∧
      after (step (mach [(127, 4299)] 127 (-1) 0 0)) (fun t => decide (t.run = .running ∧ t.pc = 128)) = true) := by decide

theorem witness_OutOfBoundsTargetTouchesNothing : checkBound (128 : Nat) = false ∧
    ([Instr.input 128, .output 128, .load 128, .jz 128].all fun i =>
      after (exec i base) fun t => decide (t.term = some ⟨3, .outOfMemory⟩)) = true := by decide

/-- The last address, and an IN whose answer is there. -/
theorem witness_StepRunsTheDecodedInstruction :
    ((mach [(127, 6699)] 127 0 0 0).run = .running ∧ checkBound (mach [(127, 6699)] 127 0 0 0).pc = true ∧
      decode ((mach [(127, 6699)] 127 0 0 0).mem.read 127) = some (.not 99) ∧
      awaitsInput (mach [(127, 6699)] 127 0 0 0) (.not 99) = false) ∧
    (decode ((inState [.value 1]).mem.read 0) = some (.input 13) ∧
      awaitsInput (inState [.value 1]) (.input 13) = false) := by decide

/-- Steps with each status: CONTINUE, STOPPED at an illegal word, FAULT. -/
theorem witness_status_of_StepRunsTheDecodedInstruction :
    (isHeld (arith 3099 5 3) = false ∧ after (step (arith 3099 5 3)) (fun t => decide (t.run = .running)) = true) ∧
    (isHeld (mach [(0, 100)] 0 0 0 0) = false ∧
      after (step (mach [(0, 100)] 0 0 0 0)) (fun t => decide (t.run = .halted)) = true) ∧
    (isHeld (arith 3099 2147483647 1) = false ∧
      faultsWith (step (arith 3099 2147483647 1)) overflow = true) := by decide

theorem witness_PlacedWordIsTheNextInstruction :
    base.params.wordBits = 32 ∧ base.run = .running ∧ checkBound base.pc = true ∧
    decodeTableWord 16 6699 = some (.not 99) ∧ awaitsInput base (.not 99) = false ∧ (1 : Nat) ≠ base.pc := by decide

/-- A halted machine, and a state it reaches in one step. -/
theorem witness_HaltedMachineStaysInert :
    ({ base with run := .halted } : State).run = .halted ∧
    Reaches { base with run := .halted } { base with run := .halted } := ⟨rfl, .tail .refl (step_halted rfl)⟩

theorem witness_PcOutOfBoundsEndsTheProgram :
    (mach [] 128 0 0 0).run = .running ∧ checkBound (mach [] 128 0 0 0).pc = false := by decide

theorem witness_UnansweredInputHoldsTheStep : (inState []).run = .running ∧ checkBound (inState []).pc = true ∧
    decode ((inState []).mem.read (inState []).pc) = some (.input 13) ∧ (inState []).input = [] := by decide

/-- A width the spec admits, and a draw of Words. -/
theorem witness_ConstructedMachineSatisfiesTheInvariant :
    params.wf = true ∧ ∀ (a : Nat) (h : a < capacity), inWord 32 (Vector.replicate capacity (77 : Int))[a] = true := by
  refine ⟨by decide, fun a h => ?_⟩
  rw [Vector.getElem_replicate]
  decide

/-- A state with the whole invariant: a running machine that is about to execute IN 13, its answer waiting. -/
theorem inState_inv : (inState [.value 42]).Inv where
  params := by decide
  pc := by show 0 ≤ 128; decide
  term := by show none = none ↔ RunState.running = .running; decide
  mem := by show Memory.wf _ = true; decide
  words :=
    { ir := by decide, acc := by decide, auxA := by decide, auxB := by decide
      output := by intro v hv; cases hv
      mem := by
        intro a ha
        show inWord 32 ((Memory.write ⟨[], Vector.replicate capacity 77⟩ 0 1013).read a) = true
        by_cases h : a = 0
        · subst h; rw [Memory.read_write_same]; decide
        · rw [Memory.read_write_ne _ h, Memory.read_empty _ ha, Vector.getElem_replicate]; decide }

/-- A step from it, in which the program counter, memory and the input change. -/
theorem witness_StepKeepsTheInvariant : (inState [.value 42]).Inv ∧
    ∃ t, step (inState [.value 42]) = .next t ∧ decide (t.mem.read 13 = 42 ∧ t.pc = 1) = true :=
  ⟨inState_inv, exists_of_after (by decide)⟩

/-- The pc at its bound, and a step that leaves it there. -/
theorem witness_StepKeepsPcInRange : (mach [] 128 0 0 0).PcInRange ∧
    ∃ t, step (mach [] 128 0 0 0) = .next t ∧ decide (t.pc = 128) = true :=
  ⟨Nat.le_refl 128, exists_of_after (by decide)⟩

theorem witness_StepKeepsTermMatchingRun : (inState [.nonNumeric]).TermMatchesRun ∧
    ∃ t, step (inState [.nonNumeric]) = .next t ∧ decide (t.run = .halted) = true :=
  ⟨⟨fun _ => rfl, fun _ => rfl⟩, exists_of_after (by decide)⟩

theorem witness_StepKeepsMemoryCanonical : (arith 2299 77 1).mem.wf = true ∧
    ∃ t, step (arith 2299 77 1) = .next t ∧ decide (t.mem.cells = [(0, 2299)]) = true :=
  ⟨by decide, exists_of_after (by decide)⟩

/-- A machine with the invariant, and a source that loads. -/
theorem witness_LoadKeepsTheInvariant : (inState [.value 42]).Inv ∧
    ((inState [.value 42]).load [.int 5, .int (-101), .int (-101), .int 1200]).isSome = true :=
  ⟨inState_inv, by decide⟩

/-- HALT, the end of the program, an illegal word, a zero divisor and an input error each halt a running machine. -/
theorem witness_EverySignalHasItsCause :
    (∃ t, step (mach [(0, 4499)] 0 0 0 0) = .next t ∧ decide (t.run = .halted) = true) ∧
    (∃ t, step (mach [] 128 0 0 0) = .next t ∧ decide (t.run = .halted) = true) ∧
    (∃ t, step (mach [(0, 100)] 0 0 0 0) = .next t ∧ decide (t.run = .halted) = true) ∧
    (∃ t, step (arith 3699 7 0) = .next t ∧ decide (t.run = .halted) = true) ∧
    (∃ t, step (inState [.endOfInput]) = .next t ∧ decide (t.run = .halted) = true) ∧
    [(mach [(0, 4499)] 0 0 0 0).run, (mach [] 128 0 0 0).run, (mach [(0, 100)] 0 0 0 0).run, (arith 3699 7 0).run,
      (inState [.endOfInput]).run] = [.running, .running, .running, .running, .running] :=
  ⟨exists_of_after (by decide), exists_of_after (by decide), exists_of_after (by decide), exists_of_after (by decide),
    exists_of_after (by decide), by decide⟩

/-- The same hypotheses as the statement above, at an input error. -/
theorem witness_EveryHaltIsPrecise : (inState [.endOfInput]).run = .running ∧
    ∃ t, step (inState [.endOfInput]) = .next t ∧ decide (t.run = .halted ∧ t.input = []) = true :=
  ⟨by decide, exists_of_after (by decide)⟩

theorem witness_NoStepRunsOutOfMemory : decode 2099 = some (.load 99) ∧
    (mach [(0, 4499)] 0 0 0 0).run = .running ∧ (mach [(0, 4499)] 0 0 0 0).term = none ∧
    ∃ t, step (mach [(0, 4499)] 0 0 0 0) = .next t ∧ decide (t.term = some ⟨99, .explicitHalt⟩) = true :=
  ⟨by decide, by decide, by decide, exists_of_after (by decide)⟩

theorem witness_NoStepFaultsUnderWrapAndOther :
    ({ base with params := ⟨32, .wrap, .other, codes⟩ } : State).params.overflow = .wrap ∧
    ({ base with params := ⟨32, .wrap, .other, codes⟩ } : State).params.divZero = .other := by decide

/-- Both faults happen, the first with ADD and, at WMIN and -1, with MOD. -/
theorem witness_FaultsComeOnlyFromTheUndefinedPolicies :
    (∃ f, step (arith 3099 2147483647 1) = .fault f ∧ overflow f = true) ∧
    (∃ f, step (arith 3899 (-2147483648) (-1)) = .fault f ∧ overflow f = true) ∧
    (∃ f, step (otherPolicies (arith 3899 7 0)) = .fault f ∧ divideByZero f = true) :=
  ⟨exists_fault_of (by decide), exists_fault_of (by decide), exists_fault_of (by decide)⟩

theorem witness_ReadGivesTheLastWrite : 0 < capacity ∧ 127 < capacity := by decide

/-- Two canonical memories over one draw, and alike. -/
theorem witness_CanonicalMemoriesAreEqualData :
    (withWords base [(3, 1), (1, 2)]).mem.wf = true ∧ (withWords base [(1, 2), (3, 5), (3, 1)]).mem.wf = true ∧
    (withWords base [(3, 1), (1, 2)]).mem.cells = (withWords base [(1, 2), (3, 5), (3, 1)]).mem.cells := by decide

/-- A STORE to the last address an operand reaches, and a NOP at address 99. -/
theorem witness_HighAddressesAreOnlyFetched :
    (∃ t, step (arith 2299 8 1) = .next t ∧ decide (t.mem.read 99 = 8 ∧ (100 : Nat) ≤ 100) = true) ∧
    (∃ t, step (arith 4099 8 1) = .next t ∧ decide (t.pc = 99) = true) :=
  ⟨exists_of_after (by decide), exists_of_after (by decide)⟩

/-- Another memory for the state of a STORE: it differs at 100 and at 127, and nowhere else. -/
theorem witness_other_words_of_HighAddressesAreOnlyFetched :
    (∀ a : Nat, a ≤ 99 ∨ a = (arith 2299 8 1).pc →
      (((arith 2299 8 1).mem.write 100 5).write 127 6).read a = (arith 2299 8 1).mem.read a) ∧
    (((arith 2299 8 1).mem.write 100 5).write 127 6).read 100 ≠ (arith 2299 8 1).mem.read 100 := by
  refine ⟨fun a h => ?_, by decide⟩
  have h99 : a ≤ 99 := h.elim id fun e => e ▸ Nat.zero_le 99
  rw [Memory.read_write_ne _ (by omega), Memory.read_write_ne _ (by omega)]

/-- A faulting step, and another memory for its state. -/
theorem witness_fault_of_HighAddressesAreOnlyFetched :
    (∃ f, step (arith 3099 2147483647 1) = .fault f ∧ overflow f = true) ∧
    ∀ a : Nat, a ≤ 99 ∨ a = (arith 3099 2147483647 1).pc →
      ((arith 3099 2147483647 1).mem.write 100 5).read a = (arith 3099 2147483647 1).mem.read a := by
  refine ⟨exists_fault_of (by decide), fun a h => ?_⟩
  have h99 : a ≤ 99 := h.elim id fun e => e ▸ Nat.zero_le 99
  rw [Memory.read_write_ne _ (by omega)]

/-- The middle step of program P6: STORE 2 at address 1, with the word of HALT 7 in acc. -/
theorem witness_StoredWordIsFetchedNext :
    (mach [(1, 2202), (2, 0)] 1 4407 0 0).run = .running ∧ checkBound (mach [(1, 2202), (2, 0)] 1 4407 0 0).pc = true ∧
    decode ((mach [(1, 2202), (2, 0)] 1 4407 0 0).mem.read 1) = some (.store 2) ∧
    decode (mach [(1, 2202), (2, 0)] 1 4407 0 0).acc = some (.halt 7) ∧
    awaitsInput (mach [(1, 2202), (2, 0)] 1 4407 0 0) (.halt 7) = false ∧
    ∃ t, step (mach [(1, 2202), (2, 0)] 1 4407 0 0) = .next t ∧ decide (t.mem.read 2 = 4407) = true :=
  ⟨by decide, by decide, by decide, by decide, by decide, exists_of_after (by decide)⟩

theorem witness_IrHasNoEffectOnTheMachine :
    (∃ t, step (arith 3099 5 3) = .next t ∧ decide (t.ir = 3099) = true) ∧
    ∃ f, step (arith 3099 2147483647 1) = .fault f ∧ overflow f = true :=
  ⟨exists_of_after (by decide), exists_fault_of (by decide)⟩

/-- A step with no transaction, one that sends and one that receives; and a run of one step. -/
theorem witness_StepMakesAtMostOneTransaction :
    (∃ t, step (arith 3099 5 3) = .next t ∧ decide (t.output = []) = true) ∧
    (∃ t, step (arith 1299 0 5) = .next t ∧ decide (t.output = [5]) = true) ∧
    (∃ t, step (inState [.value 1]) = .next t ∧ decide (t.input = []) = true) ∧
    ∃ t, Reaches (arith 1299 0 5) t ∧ decide (t.output = [5]) = true := by
  refine ⟨exists_of_after (by decide), exists_of_after (by decide), exists_of_after (by decide), ?_⟩
  obtain ⟨t, h, ht⟩ := exists_of_after (o := step (arith 1299 0 5)) (p := fun t => decide (t.output = [5])) (by decide)
  exact ⟨t, .tail .refl h, ht⟩

/-- A step that takes an answer, and one that faults. -/
theorem witness_LaterAnswersDoNotDisturbAStep :
    (isHeld (inState [.value 1]) = false ∧
      ∃ t, step (inState [.value 1]) = .next t ∧ decide (t.mem.read 13 = 1) = true) ∧
    (isHeld (arith 3099 2147483647 1) = false ∧
      ∃ f, step (arith 3099 2147483647 1) = .fault f ∧ overflow f = true) :=
  ⟨⟨by decide, exists_of_after (by decide)⟩, by decide, exists_fault_of (by decide)⟩

/-- JMP 99 at 99, and JZ 0 at 0 with acc zero; a machine reaches itself. -/
theorem witness_SelfJumpNeverHalts :
    ((mach [(99, 4099)] 99 5 0 0).run = .running ∧ (mach [(99, 4099)] 99 5 0 0).pc ≤ 99 ∧
      (mach [(99, 4099)] 99 5 0 0).mem.read 99 = 4000 + ((99 : Nat) : Int)) ∧
    ((mach [(0, 4200)] 0 0 0 0).mem.read 0 = 4200 + ((0 : Nat) : Int) ∧ (mach [(0, 4200)] 0 0 0 0).acc = 0) ∧
    Reaches (mach [(99, 4099)] 99 5 0 0) (mach [(99, 4099)] 99 5 0 0) :=
  ⟨by decide, by decide, .refl⟩

theorem witness_LoaderExampleOfTheSource : params.wf = true ∧ ({ params with wordBits := 16 } : Params).wf = true := by
  decide

/-- The example of R174 as segments: short enough to load. A list of 129 zeros is too long. -/
theorem witness_LoaderPlacesTheSegments :
    (∀ v ∈ [(5 : Int)] ++ [9, 9] ++ [1200, 1202], v ≠ sentinel ∧ inWord base.params.wordBits v = true) ∧
    ([(5 : Int)] ++ [9, 9] ++ [1200, 1202]).length ≤ 128 ∧
    (∀ v ∈ ([] : List Int) ++ [] ++ List.replicate 129 0, v ≠ sentinel ∧ inWord base.params.wordBits v = true) ∧
    128 < (([] : List Int) ++ [] ++ List.replicate 129 0).length ∧
    (([] : List Int) ++ [] ++ List.replicate 128 0).length ≤ 128 := by
  refine ⟨by decide, by decide, fun v hv => ?_, by simp, by simp⟩
  have : v = 0 := by simpa using hv
  subst this
  decide

theorem witness_ThirdSentinelEndsTheLoad :
    [Token.int (-101), .int (-101), .int 4407].count (.int sentinel) = 2 := by decide

/-- A malformed token and an integer just past WMAX, after two sentinels. -/
theorem witness_BadTokenFailsTheLoad :
    [Token.int (-101), .int 5, .int (-101)].count (.int sentinel) ≤ 2 ∧
    (2147483648 : Int) ≠ sentinel ∧ inWord base.params.wordBits 2147483648 = false := by decide

theorem witness_FewerThanTwoSentinelsLeavePc :
    [Token.int 7, .int (-101), .int 4400].count (.int sentinel) < 2 ∧
    (base.load [Token.int 7, .int (-101), .int 4400]).isSome = true := by decide

end Sys2Proof.Tests
end

section
/-! The invariant of the machine along a step, wrapping, and the bitwise operations (spec/00_scope.md R6, R12, R14). -/

namespace Sys2Proof.Machine

/-! ## Each update of the state keeps the invariant

What an update must be given to keep `State.Inv`: the word it writes is a Word, the address it writes is inside memory,
and the `pc` it sets is at most the capacity. -/

section Updates

variable {s : State} {n : Nat} {v : Int}

/-- A width that R9 admits is positive. -/
theorem State.Inv.one_le_wordBits (h : s.Inv) : 1 ≤ s.params.wordBits := by
  have h16 : 16 ≤ s.params.wordBits := by simpa [Params.wf] using h.params
  omega

/-- A value computed from the registers and memory of a good state is a Word. -/
theorem State.Inv.inWord_of_wordFrom (h : s.Inv) (hv : WordFrom s v) : inWord s.params.wordBits v = true :=
  hv h.one_le_wordBits h.words.acc h.words.auxA h.words.auxB h.words.mem

theorem State.Inv.setIr (h : s.Inv) (hv : inWord s.params.wordBits v = true) : (s.setIr v).Inv :=
  { h with words := { h.words with ir := hv } }

theorem State.Inv.setAcc (h : s.Inv) (hv : inWord s.params.wordBits v = true) : (s.setAcc v).Inv :=
  { h with words := { h.words with acc := hv } }

theorem State.Inv.setAuxA (h : s.Inv) (hv : inWord s.params.wordBits v = true) : (s.setAuxA v).Inv :=
  { h with words := { h.words with auxA := hv } }

theorem State.Inv.setAuxB (h : s.Inv) (hv : inWord s.params.wordBits v = true) : (s.setAuxB v).Inv :=
  { h with words := { h.words with auxB := hv } }

theorem State.Inv.setPc (h : s.Inv) (hn : n ≤ capacity) : (s.setPc n).Inv :=
  { h with pc := hn, words := { h.words with } }

theorem State.Inv.takeAnswer (h : s.Inv) : s.takeAnswer.Inv :=
  { h with words := { h.words with } }

/-- A write of a Word inside the capacity leaves every memory word a Word. -/
theorem Memory.write_inWord {m : Memory} {bits : Nat} (hm : ∀ a, a < capacity → inWord bits (m.read a) = true)
    (hv : inWord bits v = true) (a : Nat) (ha : a < capacity) : inWord bits ((m.write n v).read a) = true := by
  by_cases han : a = n
  · subst han; rwa [Memory.read_write_same]
  · rw [Memory.read_write_ne m han]; exact hm a ha

theorem State.Inv.storeWord (h : s.Inv) (hn : n < capacity) (hv : inWord s.params.wordBits v = true) :
    (s.storeWord n v).Inv :=
  { h with
    mem := Memory.write_wf h.mem hn v
    words := { h.words with mem := Memory.write_inWord h.words.mem hv } }

theorem State.Inv.outWrite (h : s.Inv) (hv : inWord s.params.wordBits v = true) : (s.outWrite v).Inv where
  params := h.params
  pc     := h.pc
  term   := h.term
  mem    := h.mem
  words  := { h.words with
    output := fun w hw => by
      rw [State.outWrite_output, List.mem_append, List.mem_singleton] at hw
      rcases hw with hw | rfl
      · exact h.words.output w hw
      · exact hv }

/-- The halting transition writes `run` and `term` together (spec/60_exceptions.md R151). -/
theorem State.halt_termMatchesRun (s : State) (g : Signal) (c : ExitCode) : (s.halt g c).TermMatchesRun := by
  simp [State.TermMatchesRun]

theorem State.Inv.halt (h : s.Inv) (g : Signal) (c : ExitCode) : (s.halt g c).Inv :=
  { h with term := s.halt_termMatchesRun g c, words := { h.words with } }

theorem State.Inv.haltSignal (h : s.Inv) (g : Signal) : (s.haltSignal g).Inv := h.halt g _

end Updates

/-! ## The step keeps the invariant -/

/-- Every way an instruction ends in a next state keeps the invariant. -/
theorem Effect.inv {s t : State} {i : Instr} (he : Effect s i t) (h : s.Inv) (hpc : s.pc < capacity) : t.Inv := by
  have hnext : s.pc + 1 ≤ capacity := hpc
  have hbits := h.one_le_wordBits
  cases he with
  | nop n => exact h.setPc hnext
  | jump _ n _ hn => exact h.setPc hn.le
  | fallThrough n _ => exact h.setPc hnext
  | acc _ n v _ hv => exact (h.setAcc (h.inWord_of_wordFrom hv)).setPc hnext
  | setA n hn => exact (h.setAuxA (h.words.mem n hn)).setPc hnext
  | setB n hn => exact (h.setAuxB (h.words.mem n hn)).setPc hnext
  | flat n => exact ((h.setAuxA (bitAnd_inWord hbits _ _)).setAuxB (bitAnd_inWord hbits _ _)).setPc hnext
  | store _ n v _ hn hv => exact (h.storeWord hn (h.inWord_of_wordFrom hv)).setPc hnext
  | receive n a v hn _ ha => exact (h.takeAnswer.storeWord hn (answerWord_inWord ha)).setPc hnext
  | inputError n a _ _ => exact h.takeAnswer.haltSignal _
  | held n _ _ => exact h
  | send n hn => exact (h.outWrite (h.words.mem n hn)).setPc hnext
  | explicitHalt n => exact h.halt _ _
  | zeroDivisor _ n _ _ _ => exact h.haltSignal _
  | outOfBounds _ _ => exact h.haltSignal _

/-- The fetch of step 2 keeps the invariant: the word at `pc` is a Word. -/
theorem State.Inv.fetch {s : State} (h : s.Inv) (hpc : s.pc < capacity) : (s.setIr (s.mem.read s.pc)).Inv :=
  h.setIr (h.words.mem s.pc hpc)

/-- Settles O40: the cases of the step, and each effect of an instruction after the fetch. -/
theorem stepKeepsTheInvariant : Obligations.StepKeepsTheInvariant := by
  intro s t h hstep
  obtain rfl | ⟨-, -, rfl⟩ | ⟨-, hpc, -, rfl⟩ | ⟨i, -, hpc, -, -, hexec⟩ := step_next hstep
  · exact h
  · exact h.haltSignal _
  · exact (h.fetch hpc).haltSignal _
  · exact (exec_effect hexec).inv (h.fetch hpc) hpc

/-! ## Wrapping (spec/00_scope.md R12) -/

/-- Wrapping changes a value by a multiple of 2^WORD_BITS. -/
theorem two_pow_dvd_sub_wrap (bits : Nat) (v : Int) : (2 ^ bits : Int) ∣ v - wrap bits v := by
  have h : ((2 ^ bits : Nat) : Int) ∣ v - Int.bmod v (2 ^ bits) := Int.dvd_self_sub_bmod
  exact_mod_cast h

/-- Settles O24: a Word is its own wrapping, and congruent integers have the same one. -/
theorem wrapIsTheOnlyCongruentWord : Obligations.WrapIsTheOnlyCongruentWord := by
  intro bits v hbits
  have hpos : 1 ≤ bits := by omega
  refine ⟨wrap_inWord hpos v, two_pow_dvd_sub_wrap bits v, fun u hu hdvd => ?_⟩
  calc u = wrap bits u := (wrap_of_inWord hpos hu).symm
    _ = wrap bits v := (wrap_congr hdvd).symm

/-! ## The bitwise operations as bit vectors (spec/00_scope.md R14) -/

@[simp] theorem toBits_bitAnd (bits : Nat) (a b : Int) :
    toBits bits (bitAnd bits a b) = toBits bits a &&& toBits bits b := toBits_toInt _

@[simp] theorem toBits_bitOr (bits : Nat) (a b : Int) :
    toBits bits (bitOr bits a b) = toBits bits a ||| toBits bits b := toBits_toInt _

@[simp] theorem toBits_bitXor (bits : Nat) (a b : Int) :
    toBits bits (bitXor bits a b) = toBits bits a ^^^ toBits bits b := toBits_toInt _

@[simp] theorem toBits_bitNot (bits : Nat) (a : Int) :
    toBits bits (bitNot bits a) = ~~~ toBits bits a := toBits_toInt _

/-- Settles O23: the representation of each result is the operation on the representations. -/
theorem bitwiseOperationsActBitByBit : Obligations.BitwiseOperationsActBitByBit := by
  intro bits a b i _ hi
  refine ⟨?_, ?_, ?_, ?_⟩
  · rw [toBits_bitAnd, BitVec.getLsbD_and]
  · rw [toBits_bitOr, BitVec.getLsbD_or]
  · rw [toBits_bitXor, BitVec.getLsbD_xor]
  · rw [toBits_bitNot, BitVec.getLsbD_not, decide_eq_true hi, Bool.true_and]

end Sys2Proof.Machine
end

section
/-! What an instruction and a step leave unchanged, and what they do to `pc`, `run` and `term` (spec/10_state.md R21-R33),
`ir` as a register that nothing reads, and the state after construction. -/

namespace Sys2Proof.Machine

/-! ## The writers of each part of the state (spec/10_state.md R33)

Each list holds the instructions with operand `n`. -/

/-- The instructions that may write `acc`. -/
def accWriters (n : Nat) : List Instr := [.load n, .add n, .sub n, .mul n, .div n, .mod n]

/-- The instructions that may write `auxA`. -/
def auxAWriters (n : Nat) : List Instr := [.setA n, .flat n]

/-- The instructions that may write `auxB`. -/
def auxBWriters (n : Nat) : List Instr := [.setB n, .flat n]

/-- The instructions that may write the word at their operand. -/
def memWriters (n : Nat) : List Instr := [.input n, .store n, .and n, .or n, .xor n, .not n]

theorem operand_of_mem_accWriters {n : Nat} : ∀ i ∈ accWriters n, i.operand = n := by
  simp [accWriters, Instr.operand]

theorem operand_of_mem_memWriters {n : Nat} : ∀ i ∈ memWriters n, i.operand = n := by
  simp [memWriters, Instr.operand]

/-! ## The frame of an instruction

Each part of the state is as it was unless the instruction is one of its writers. -/

section Frame

variable {s t : State} {i : Instr}

theorem Effect.acc_eq (he : Effect s i t) (hi : i ∉ accWriters i.operand) : t.acc = s.acc := by
  cases he with
  | acc _ n v hm _ => exact absurd ((operand_of_mem_accWriters i hm).symm ▸ hm) hi
  | _ => rfl

theorem Effect.auxA_eq (he : Effect s i t) (hi : i ∉ auxAWriters i.operand) : t.auxA = s.auxA := by
  cases he with
  | setA n _ | flat n => simp [auxAWriters, Instr.operand] at hi
  | _ => rfl

theorem Effect.auxB_eq (he : Effect s i t) (hi : i ∉ auxBWriters i.operand) : t.auxB = s.auxB := by
  cases he with
  | setB n _ | flat n => simp [auxBWriters, Instr.operand] at hi
  | _ => rfl

theorem Effect.output_eq (he : Effect s i t) (hi : i ≠ .output i.operand) : t.output = s.output := by
  cases he with
  | send n _ => exact absurd rfl hi
  | _ => rfl

theorem Effect.input_eq (he : Effect s i t) (hi : i ≠ .input i.operand) : t.input = s.input := by
  cases he with
  | receive n _ _ _ _ _ | inputError n _ _ _ => exact absurd rfl hi
  | _ => rfl

theorem Effect.ir_eq (he : Effect s i t) : t.ir = s.ir := by cases he <;> rfl

theorem Effect.params_eq (he : Effect s i t) : t.params = s.params := by cases he <;> rfl

/-- Memory after an instruction: as it was, or with one write at the operand of one of memory's writers. -/
theorem Effect.mem_cases (he : Effect s i t) :
    t.mem = s.mem ∨ (i ∈ memWriters i.operand ∧ ∃ v, t.mem = s.mem.write i.operand v) := by
  cases he with
  | store _ n v hm _ _ =>
    have hw : i ∈ memWriters n := List.mem_cons_of_mem _ hm
    obtain rfl := operand_of_mem_memWriters i hw
    exact .inr ⟨hw, v, rfl⟩
  | receive n a v _ _ _ => exact .inr ⟨List.mem_cons_self, v, rfl⟩
  | _ => exact .inl rfl

theorem Effect.mem_eq (he : Effect s i t) (hi : i ∉ memWriters i.operand) : t.mem = s.mem :=
  he.mem_cases.resolve_right fun h => hi h.1

theorem Effect.draw_eq (he : Effect s i t) : t.mem.draw = s.mem.draw := by
  obtain hm | ⟨-, v, hm⟩ := he.mem_cases
  · rw [hm]
  · rw [hm, Memory.write_draw]

theorem Effect.read_eq (he : Effect s i t) {a : Nat} (ha : a ≠ i.operand) : t.mem.read a = s.mem.read a := by
  obtain hm | ⟨-, v, hm⟩ := he.mem_cases
  · rw [hm]
  · rw [hm, Memory.read_write_ne _ ha]

end Frame

/-- Settles O27: no such form writes memory or takes an answer, and the rest is the frame of an instruction. -/
theorem frameOfFormsThatStoreNothing : Obligations.FrameOfFormsThatStoreNothing := by
  intro n s t i hi
  obtain ⟨rfl, hmem, hin⟩ : i.operand = n ∧ i ∉ memWriters n ∧ i ≠ .input n := by
    revert i; simp [memWriters, Instr.operand]
  intro hexec
  have he := exec_effect hexec
  have hm := he.mem_eq hmem
  exact ⟨fun a => by rw [hm], he.draw_eq, he.ir_eq, he.params_eq, he.input_eq hin, he.acc_eq, he.auxA_eq, he.auxB_eq,
    he.output_eq⟩

/-- Settles O28: no such form writes a register or the output, and a read elsewhere is the frame of one write. -/
theorem frameOfStoringForms : Obligations.FrameOfStoringForms := by
  intro n s t i hi
  obtain ⟨rfl, hacc, hauxA, hauxB, hout⟩ : i.operand = n ∧ i ∉ accWriters n ∧ i ∉ auxAWriters n ∧
      i ∉ auxBWriters n ∧ i ≠ .output n := by
    revert i; simp [accWriters, auxAWriters, auxBWriters, Instr.operand]
  intro hexec
  have he := exec_effect hexec
  exact ⟨fun a ha => he.read_eq ha, he.draw_eq, he.acc_eq hacc, he.auxA_eq hauxA, he.auxB_eq hauxB, he.ir_eq,
    he.params_eq, he.output_eq hout, he.input_eq⟩

/-! ## The control state after an instruction (spec/40_control.md R84, R85, R87, R88) -/

section Control

variable {s t : State} {i : Instr}

/-- The address of the next instruction after `i`, when `i` completes in `s`. -/
def nextPc (s : State) : Instr → Nat
  | .jmp n => n
  | .jz n  => if s.acc = 0 then n else s.pc + 1
  | _      => s.pc + 1

theorem nextPc_of_mem_accWriters {n : Nat} : ∀ i ∈ accWriters n, nextPc s i = s.pc + 1 := by
  simp [accWriters, nextPc]

theorem nextPc_of_mem_memWriters {n : Nat} : ∀ i ∈ memWriters n, nextPc s i = s.pc + 1 := by
  simp [memWriters, nextPc]

/-- `nextPc` is the target of a jump that is taken, and the following address for everything else. -/
theorem nextPc_cases (s : State) (i : Instr) :
    (∃ n, (i = .jmp n ∨ (i = .jz n ∧ s.acc = 0)) ∧ nextPc s i = n) ∨
      ((∀ n, i ≠ .jmp n) ∧ (∀ n, i = .jz n → s.acc ≠ 0) ∧ nextPc s i = s.pc + 1) := by
  cases i with
  | jmp n => exact .inl ⟨n, .inl rfl, rfl⟩
  | jz n =>
    by_cases hz : s.acc = 0
    · exact .inl ⟨n, .inr ⟨rfl, hz⟩, if_pos hz⟩
    · exact .inr ⟨nofun, fun _ _ => hz, if_neg hz⟩
  | _ => exact .inr ⟨nofun, nofun, rfl⟩

/-- An instruction halts with `pc` kept and a record written, or is held, or completes and goes on to its next
address. -/
theorem Effect.control (he : Effect s i t) :
    (t.run = .halted ∧ t.term ≠ none ∧ t.pc = s.pc) ∨ (awaitsInput s i = true ∧ t = s) ∨
      (t.run = s.run ∧ t.term = s.term ∧ t.pc = nextPc s i) := by
  cases he with
  | jump _ n hj _ =>
    refine .inr (.inr ⟨rfl, rfl, ?_⟩)
    obtain rfl | ⟨rfl, hz⟩ := hj
    · rfl
    · exact (if_pos hz).symm
  | fallThrough n hz => exact .inr (.inr ⟨rfl, rfl, (if_neg hz).symm⟩)
  | acc _ n v hm _ => exact .inr (.inr ⟨rfl, rfl, (nextPc_of_mem_accWriters i hm).symm⟩)
  | store _ n v hm _ _ =>
    exact .inr (.inr ⟨rfl, rfl, (nextPc_of_mem_memWriters i (List.mem_cons_of_mem _ hm)).symm⟩)
  | held n hn hi => exact .inr (.inl ⟨by simp [awaitsInput, hn, hi], rfl⟩)
  | inputError | explicitHalt | zeroDivisor | outOfBounds => exact .inl ⟨rfl, nofun, rfl⟩
  | nop | setA | setB | flat | receive | send => exact .inr (.inr ⟨rfl, rfl, rfl⟩)

theorem Effect.termMatchesRun (he : Effect s i t) (h : s.TermMatchesRun) : t.TermMatchesRun := by
  obtain ⟨hrun, hterm, -⟩ | ⟨-, rfl⟩ | ⟨hrun, hterm, -⟩ := he.control
  · simp [State.TermMatchesRun, hrun, hterm]
  · exact h
  · rwa [State.TermMatchesRun, hrun, hterm]

/-- From an address inside memory an instruction goes to its checked target, stays, or goes one further. -/
theorem Effect.pcInRange (he : Effect s i t) (hpc : s.pc < capacity) : t.PcInRange := by
  have hnext : s.pc + 1 ≤ capacity := hpc
  cases he with
  | jump _ n _ hn => exact hn.le
  | inputError | held | explicitHalt | zeroDivisor | outOfBounds => exact hpc.le
  | _ => exact hnext

end Control

/-- Settles O37: the cases of the step, and where an instruction takes `pc`. -/
theorem stepKeepsPcInRange : Obligations.StepKeepsPcInRange := by
  intro s t h hstep
  obtain rfl | ⟨-, -, rfl⟩ | ⟨-, -, -, rfl⟩ | ⟨i, -, hpc, -, -, hexec⟩ := step_next hstep
  · exact h
  · exact h
  · exact h
  · exact (exec_effect hexec).pcInRange hpc

/-- Settles O38: the halting transition writes `run` and `term` together, and nothing else writes either. -/
theorem stepKeepsTermMatchingRun : Obligations.StepKeepsTermMatchingRun := by
  intro s t h hstep
  obtain rfl | ⟨-, -, rfl⟩ | ⟨-, -, -, rfl⟩ | ⟨i, -, -, -, -, hexec⟩ := step_next hstep
  · exact h
  · exact State.halt_termMatchesRun _ _ _
  · exact State.halt_termMatchesRun _ _ _
  · exact (exec_effect hexec).termMatchesRun h

/-! ## The frame of a step -/

section StepFrame

variable {s t : State}

@[simp] theorem awaitsInput_setIr (s : State) (w : Int) (i : Instr) : awaitsInput (s.setIr w) i = awaitsInput s i := by
  cases i <;> rfl

/-- A machine is held where it runs and the instruction it would fetch waits for an answer (spec/43_io.md R147). -/
theorem isHeld_iff : isHeld s = true ↔ s.run = .running ∧ s.pc < capacity ∧
    ∃ i, decode (s.mem.read s.pc) = some i ∧ awaitsInput s i = true := by
  simp [isHeld, fetchWord, Option.any_eq_true, and_assoc]

theorem step_of_isHeld (h : isHeld s = true) : step s = .next s := by
  obtain ⟨hrun, hpc, i, hd, hw⟩ := isHeld_iff.1 h
  exact step_held hrun hpc hd hw

/-- What a step changes, other than by the fetch and the halting transition, the instruction at `pc` changes. -/
theorem effect_of_step_changes {α : Type} (f : State → α) (hhalt : ∀ u g, f (State.haltSignal u g) = f u)
    (hir : ∀ u w, f (State.setIr u w) = f u) (h : step s = .next t) (hne : f t ≠ f s) :
    ∃ i, decode (s.mem.read s.pc) = some i ∧ Effect (s.setIr (s.mem.read s.pc)) i t := by
  obtain rfl | ⟨-, -, rfl⟩ | ⟨-, -, -, rfl⟩ | ⟨i, -, -, hd, -, hexec⟩ := step_next h
  · exact absurd rfl hne
  · exact absurd (hhalt _ _) hne
  · exact absurd ((hhalt _ _).trans (hir _ _)) hne
  · exact ⟨i, hd, exec_effect hexec⟩

/-- If only `writers` change a part of the state, and neither the fetch nor the halting transition does, then a step that
changes it runs one of them. -/
theorem writer_of_step_changes {α : Type} (f : State → α) {writers : Nat → List Instr}
    (hhalt : ∀ u g, f (State.haltSignal u g) = f u) (hir : ∀ u w, f (State.setIr u w) = f u)
    (hframe : ∀ {u i}, Effect u i t → i ∉ writers i.operand → f t = f u) (h : step s = .next t) (hne : f t ≠ f s) :
    ∃ n, ∃ i ∈ writers n, decode (s.mem.read s.pc) = some i := by
  obtain ⟨i, hd, he⟩ := effect_of_step_changes f hhalt hir h hne
  exact ⟨i.operand, i, by_contra fun hi => hne ((hframe he hi).trans (hir _ _)), hd⟩

/-- A word of memory changes only at the operand of the writer that the step runs. -/
theorem writer_of_step_changes_read (h : step s = .next t) {a : Nat} (hne : t.mem.read a ≠ s.mem.read a) :
    ∃ i ∈ memWriters a, decode (s.mem.read s.pc) = some i := by
  obtain ⟨i, hd, he⟩ := effect_of_step_changes (·.mem.read a) (fun _ _ => rfl) (fun _ _ => rfl) h hne
  obtain rfl : a = i.operand := by_contra fun ha => hne (he.read_eq ha)
  exact ⟨i, by_contra fun hi => hne (by rw [he.mem_eq hi, State.setIr_mem]), hd⟩

theorem output_of_step_changes (h : step s = .next t) (hne : t.output ≠ s.output) :
    ∃ n, decode (s.mem.read s.pc) = some (.output n) := by
  obtain ⟨i, hd, he⟩ := effect_of_step_changes State.output (fun _ _ => rfl) (fun _ _ => rfl) h hne
  have hi : i = .output i.operand := by_contra fun hi => hne (he.output_eq hi)
  exact ⟨i.operand, hi ▸ hd⟩

theorem step_ir (h : step s = .next t) : t.ir = s.ir ∨ t.ir = s.mem.read s.pc := by
  obtain rfl | ⟨-, -, rfl⟩ | ⟨-, -, -, rfl⟩ | ⟨i, -, -, -, -, hexec⟩ := step_next h
  · exact .inl rfl
  · exact .inl rfl
  · exact .inr rfl
  · exact .inr (exec_effect hexec).ir_eq

theorem step_params (h : step s = .next t) : t.params = s.params := by
  by_contra hne
  obtain ⟨i, -, he⟩ := effect_of_step_changes State.params (fun _ _ => rfl) (fun _ _ => rfl) h hne
  exact hne he.params_eq

theorem step_draw (h : step s = .next t) : t.mem.draw = s.mem.draw := by
  by_contra hne
  obtain ⟨i, -, he⟩ := effect_of_step_changes (·.mem.draw) (fun _ _ => rfl) (fun _ _ => rfl) h hne
  exact hne he.draw_eq

/-- A step that halts keeps `pc`: a failure writes no register (spec/60_exceptions.md R151). -/
theorem step_pc_of_halted (h : step s = .next t) (ht : t.run = .halted) : t.pc = s.pc := by
  obtain rfl | ⟨-, -, rfl⟩ | ⟨-, -, -, rfl⟩ | ⟨i, hrun, -, -, -, hexec⟩ := step_next h
  · rfl
  · rfl
  · rfl
  · obtain ⟨-, -, hpc⟩ | ⟨-, rfl⟩ | ⟨hr, -, -⟩ := (exec_effect hexec).control
    · exact hpc
    · rfl
    · simp [ht, hrun] at hr

/-- A step after which the machine runs, and which is not held, completes an instruction. -/
theorem step_pc_of_running (h : step s = .next t) (ht : t.run = .running) (hh : isHeld s = false) :
    ∃ i, decode (s.mem.read s.pc) = some i ∧ t.pc = nextPc s i := by
  obtain hr | ⟨hr, hb⟩ | ⟨hr, hb, hd⟩ | ⟨i, hr, hb, hd, hw⟩ | ⟨i, hr, hb, hd, hw⟩ := step_cases s
  · rw [step_halted hr, Host.Outcome.next.injEq] at h
    simp [← h, hr] at ht
  · rw [step_endOfProgram hr hb, Host.Outcome.next.injEq] at h
    simp [← h] at ht
  · rw [step_invalid hr hb hd, Host.Outcome.next.injEq] at h
    simp [← h] at ht
  · simp [isHeld_iff.2 ⟨hr, hb, i, hd, hw⟩] at hh
  · rw [step_exec hr hb hd hw] at h
    obtain ⟨hr', -, -⟩ | ⟨hw', -⟩ | ⟨-, -, hpc⟩ := (exec_effect h).control
    · simp [ht] at hr'
    · simp [hw] at hw'
    · exact ⟨i, hd, hpc⟩

end StepFrame

/-- Settles O29: each part of the state by its frame along a step, and `pc` by the control state. -/
theorem stepsChangeOnlyWhatR33Lists : Obligations.StepsChangeOnlyWhatR33Lists := by
  intro s t h
  refine ⟨writer_of_step_changes State.acc (fun _ _ => rfl) (fun _ _ => rfl) Effect.acc_eq h,
    writer_of_step_changes State.auxA (fun _ _ => rfl) (fun _ _ => rfl) Effect.auxA_eq h,
    writer_of_step_changes State.auxB (fun _ _ => rfl) (fun _ _ => rfl) Effect.auxB_eq h,
    writer_of_step_changes State.mem (fun _ _ => rfl) (fun _ _ => rfl) Effect.mem_eq h,
    fun a => writer_of_step_changes_read h, output_of_step_changes h, step_ir h, step_params h, step_draw h,
    fun hrun => ?_, fun hpc => ?_, fun ht hh => ?_⟩
  · rw [step_halted hrun, Host.Outcome.next.injEq] at h
    exact h ▸ ⟨hrun, rfl⟩
  · obtain ht | hh := hpc
    · exact step_pc_of_halted h ht
    · rw [step_of_isHeld hh, Host.Outcome.next.injEq] at h
      rw [h]
  · obtain ⟨i, hd, hpc⟩ := step_pc_of_running h ht hh
    simpa only [hd, hpc, Option.some.injEq, ne_eq] using nextPc_cases s i

/-! ## `ir` has no reader (spec/10_state.md R22, R29) -/

/-- A step that fetches overwrites `ir`, so it is the same from any `ir`; one that does not carries `ir` along. -/
theorem step_setIr (s : State) (w : Int) :
    step (s.setIr w) = step s ∨ ∃ t, step s = .next t ∧ step (s.setIr w) = .next (t.setIr w) := by
  obtain hr | ⟨hr, hb⟩ | ⟨hr, hb, hd⟩ | ⟨i, hr, hb, hd, hw⟩ | ⟨i, hr, hb, hd, hw⟩ := step_cases s
  · exact .inr ⟨s, step_halted hr, step_halted hr⟩
  · exact .inr ⟨_, step_endOfProgram hr hb, step_endOfProgram hr hb⟩
  · exact .inl ((step_invalid (s := s.setIr w) hr hb hd).trans (step_invalid hr hb hd).symm)
  · exact .inr ⟨s, step_held hr hb hd hw, step_held (s := s.setIr w) hr hb hd (by rwa [awaitsInput_setIr])⟩
  · exact .inl ((step_exec (s := s.setIr w) hr hb hd (by rwa [awaitsInput_setIr])).trans (step_exec hr hb hd hw).symm)

/-- Settles O51: the two ways a step can treat `ir`. -/
theorem irHasNoEffectOnTheMachine : Obligations.IrHasNoEffectOnTheMachine := by
  intro s w
  obtain heq | ⟨u, hs, hw⟩ := step_setIr s w
  · exact ⟨fun t ht => ⟨t, heq.trans ht, rfl⟩, fun f hf => heq.trans hf⟩
  · refine ⟨fun t ht => ⟨u.setIr w, hw, ?_⟩, fun f hf => ?_⟩
    · rw [hs, Host.Outcome.next.injEq] at ht
      subst ht
      rfl
    · rw [hs] at hf; cases hf

/-! ## Construction (spec/10_state.md R32) -/

/-- A constructed machine meets the invariant, for a width that R9 admits and a draw of Words. -/
theorem State.construct_inv {p : Params} {d : Vector Int capacity} (l : List InputAnswer) (hp : p.wf = true)
    (hd : ∀ (a : Nat) (h : a < capacity), inWord p.wordBits d[a] = true) : (State.construct p d l).Inv where
  params := hp
  pc     := Nat.zero_le _
  term   := by simp [State.TermMatchesRun]
  mem    := Memory.wf_empty d
  words  :=
    { ir := inWord_zero _, acc := inWord_zero _, auxA := inWord_zero _, auxB := inWord_zero _
      mem := fun a h => by rw [State.construct_mem, Memory.read_empty d h]; exact hd a h
      output := nofun }

/-- State.reset is constructed with the width 32 and a draw of zeros. -/
theorem State.reset_inv : State.reset.Inv :=
  State.construct_inv [] rfl fun a h => by rw [resetDraw, Vector.getElem_replicate]; exact inWord_zero _

/-- Settles O36: the reset values by definition, the draw read back, and the invariant of a constructed machine. -/
theorem constructedMachineSatisfiesTheInvariant : Obligations.ConstructedMachineSatisfiesTheInvariant :=
  ⟨fun _ d l => ⟨rfl, rfl, rfl, rfl, rfl, rfl, rfl, fun _ h => Memory.read_empty d h, State.construct_inv l⟩,
    State.reset_inv⟩

end Sys2Proof.Machine
end

section
/-! Memory: reads and writes, the canonical form, the bounds check, and what a step reads and writes
(spec/20_memory.md). -/

namespace Sys2Proof.Machine

/-! ## Reading after a write (spec/20_memory.md R51) -/

theorem Memory.read_write (m : Memory) (a b : Nat) (v : Int) :
    (m.write a v).read b = if b = a then v else m.read b := by
  split
  next h => rw [h, Memory.read_write_same]
  next h => rw [Memory.read_write_ne m h]

/-- Settles O47: a write is seen at its address only, and unwritten memory is the draw. -/
theorem readGivesTheLastWrite : Obligations.ReadGivesTheLastWrite :=
  ⟨Memory.read_write, fun d _ h => Memory.read_empty d h⟩

/-! ## The canonical form determines the cells (notes/assumptions/6.md) -/

theorem Memory.cellsWf_cons {m : Memory} {lo a : Nat} {v : Int} {cs : List WordCell} :
    m.cellsWf lo ((a, v) :: cs) = true ↔
      lo ≤ a ∧ a < capacity ∧ v ≠ m.drawn a ∧ m.cellsWf (a + 1) cs = true := by
  simp [Memory.cellsWf, and_assoc]

/-- A canonical list gives an address a value only at or above its lower end and below the capacity, and never the
drawn one. -/
theorem Memory.cellsWf_lookup {m : Memory} {lo a : Nat} {v : Int} {cs : List WordCell} (hw : m.cellsWf lo cs = true)
    (h : lookupCell a cs = some v) : lo ≤ a ∧ a < capacity ∧ v ≠ m.drawn a := by
  induction cs generalizing lo with
  | nil => cases h
  | cons c cs ih =>
    obtain ⟨b, w⟩ := c
    obtain ⟨hlo, hb, hne, htail⟩ := Memory.cellsWf_cons.1 hw
    by_cases hba : b = a
    · subst hba
      obtain rfl : w = v := by simpa [lookupCell] using h
      exact ⟨hlo, hb, hne⟩
    · obtain ⟨hlt, hrest⟩ := ih htail (by simpa [lookupCell, hba] using h)
      exact ⟨by omega, hrest⟩

theorem Memory.cellsWf_lookup_lt {m : Memory} {lo a : Nat} {cs : List WordCell} (hw : m.cellsWf lo cs = true)
    (h : a < lo) : lookupCell a cs = none :=
  Option.eq_none_iff_forall_ne_some.2 fun _ hv => absurd (Memory.cellsWf_lookup hw hv).1 (by omega)

/-- A canonical list that lists the first address of another begins at or below it. -/
theorem Memory.head_le_of_lookup_eq {m : Memory} {lo a b : Nat} {v w : Int} {cs cs' : List WordCell}
    (hw : m.cellsWf lo ((b, w) :: cs') = true)
    (h : lookupCell a ((a, v) :: cs) = lookupCell a ((b, w) :: cs')) : b ≤ a := by
  have hb : m.cellsWf b ((b, w) :: cs') = true := by
    rw [Memory.cellsWf_cons] at hw ⊢
    exact ⟨le_rfl, hw.2⟩
  exact (Memory.cellsWf_lookup hb (h.symm.trans (if_pos rfl))).1

/-- Canonical lists over one draw that give every address the same value are the same list. -/
theorem Memory.cells_ext {m : Memory} {lo : Nat} {cs cs' : List WordCell} (hw : m.cellsWf lo cs = true)
    (hw' : m.cellsWf lo cs' = true) (h : ∀ a, lookupCell a cs = lookupCell a cs') : cs = cs' := by
  induction cs generalizing lo cs' with
  | nil =>
    cases cs' with
    | nil => rfl
    | cons c cs' => simpa [lookupCell] using h c.1
  | cons c cs ih =>
    cases cs' with
    | nil => simpa [lookupCell] using h c.1
    | cons c' cs' =>
      obtain ⟨a, v⟩ := c
      obtain ⟨b, w⟩ := c'
      obtain rfl : a = b :=
        le_antisymm (Memory.head_le_of_lookup_eq hw (h b).symm) (Memory.head_le_of_lookup_eq hw' (h a))
      obtain rfl : v = w := by simpa [lookupCell] using h a
      obtain ⟨-, -, -, ht⟩ := Memory.cellsWf_cons.1 hw
      obtain ⟨-, -, -, ht'⟩ := Memory.cellsWf_cons.1 hw'
      rw [ih ht ht' fun x => ?_]
      by_cases hx : a = x
      · subst hx
        rw [Memory.cellsWf_lookup_lt ht a.lt_succ_self, Memory.cellsWf_lookup_lt ht' a.lt_succ_self]
      · simpa [lookupCell, hx] using h x

/-- In canonical memory the listed addresses are those that do not read as drawn. -/
theorem Memory.lookup_of_wf {m : Memory} (hw : m.wf = true) (a : Nat) :
    lookupCell a m.cells = if m.read a = m.drawn a then none else some (m.read a) := by
  cases h : lookupCell a m.cells with
  | none => simp [Memory.read, h]
  | some v =>
    obtain ⟨-, -, hne⟩ := Memory.cellsWf_lookup hw h
    simp [Memory.read, h, hne]

/-- Settles O48: what an address reads as decides whether it is listed and with which value, and the values decide the
list. -/
theorem canonicalMemoriesAreEqualData : Obligations.CanonicalMemoriesAreEqualData := by
  intro m m' hw hw' hdraw hread
  have hdrawn (a : Nat) : m'.drawn a = m.drawn a := by rw [Memory.drawn, ← hdraw, Memory.drawn]
  have hlookup (a : Nat) : lookupCell a m.cells = lookupCell a m'.cells := by
    by_cases ha : a < capacity
    · rw [Memory.lookup_of_wf hw, Memory.lookup_of_wf hw', hread a ha, hdrawn]
    · have hnone {k : Memory} (hk : k.wf = true) : lookupCell a k.cells = none :=
        Option.eq_none_iff_forall_ne_some.2 fun _ hv => ha (Memory.cellsWf_lookup hk hv).2.1
      rw [hnone hw, hnone hw']
  have hcells : m.cells = m'.cells :=
    Memory.cells_ext hw ((Memory.cellsWf_draw hdraw 0 m'.cells).trans hw') hlookup
  obtain ⟨cells, draw⟩ := m
  obtain ⟨cells', draw'⟩ := m'
  obtain rfl : cells = cells' := hcells
  obtain rfl : draw = draw' := hdraw
  rfl

/-! ## The bounds check (spec/20_memory.md R40, R41) -/

theorem checkBound_iff {i : Int} : checkBound i = true ↔ 0 ≤ i ∧ i < 128 := by
  simp [checkBound]

/-- The instructions that go on with the word at their operand. -/
def operandReaders (n : Nat) : List Instr :=
  [.output n, .load n, .add n, .sub n, .mul n, .div n, .mod n, .setA n, .setB n]

/-- The instructions whose operand is a target. -/
def jumps (n : Nat) : List Instr := [.jmp n, .jz n]

section OutOfBounds

variable {n : Nat} (hn : ¬ n < capacity) (s : State)

include hn

theorem exec_operandReader_outOfBounds :
    ∀ i ∈ operandReaders n, exec i s = .next (s.haltSignal .outOfMemory) := by
  simp [operandReaders, exec_output, exec_load, exec_add, exec_sub, exec_mul, exec_div, exec_mod, exec_setA, exec_setB,
    withOperand_outOfBounds hn]

theorem exec_memWriter_outOfBounds : ∀ i ∈ memWriters n, exec i s = .next (s.haltSignal .outOfMemory) := by
  simp [memWriters, exec_input, execInput_outOfBounds hn, exec_store, exec_and, exec_or, exec_xor, exec_not,
    storeOperand_outOfBounds hn]

theorem exec_jump_outOfBounds : ∀ i ∈ jumps n, exec i s = .next (s.haltSignal .outOfMemory) := by
  simp [jumps, exec_jmp, exec_jz, jumpIf_outOfBounds hn]

end OutOfBounds

/-- Settles O30: an addressed instruction reads its operand, writes it or jumps to it, and each checks it first. -/
theorem outOfBoundsTargetTouchesNothing : Obligations.OutOfBoundsTargetTouchesNothing := by
  refine ⟨fun i => checkBound_iff, fun n s i hi hb => ?_⟩
  have hn : ¬ n < capacity := by simpa using hb
  have hkind : i ∈ operandReaders n ∨ i ∈ memWriters n ∨ i ∈ jumps n := by
    revert i
    simp [operandReaders, memWriters, jumps]
  obtain hread | hwrite | hjump := hkind
  · exact exec_operandReader_outOfBounds hn s i hread
  · exact exec_memWriter_outOfBounds hn s i hwrite
  · exact exec_jump_outOfBounds hn s i hjump

/-! ## Decoded operands (spec/20_memory.md R45) -/

/-- An instruction read from a pair has the pair's operand: in each unit every opcode it knows does. -/
theorem operand_of_instrOfFields {op n : Nat} {i : Instr} (h : (instrOfFields op n).instr? = some i) :
    i.operand = n := by
  revert h
  unfold instrOfFields
  split
  · unfold controlInstr; split_ifs <;> rintro ⟨⟩ <;> rfl
  · unfold ioInstr; split_ifs <;> rintro ⟨⟩ <;> rfl
  · unfold arithmeticInstr; split_ifs <;> rintro ⟨⟩ <;> rfl
  · unfold extendedInstr; split_ifs <;> rintro ⟨⟩ <;> rfl
  · rintro ⟨⟩

theorem decode_operand_le {w : Int} {i : Instr} (h : decode w = some i) : i.operand ≤ 99 := by
  by_cases hw : 0 ≤ w ∧ w ≤ 9999
  · rw [decode_of_range hw] at h
    rw [operand_of_instrOfFields h]
    omega
  · rw [decode_of_not_range hw] at h
    cases h

theorem decode_operand_lt_capacity {w : Int} {i : Instr} (h : decode w = some i) : i.operand < capacity :=
  (decode_operand_le h).trans_lt (by decide)

/-- The one effect that records OUT_OF_MEMORY needs an operand out of bounds. -/
theorem Effect.term_of_inBounds {s t : State} {i : Instr} (he : Effect s i t) (hi : i.operand < capacity) :
    t.term = s.term ∨ ∃ r, t.term = some r ∧ r.signal ≠ .outOfMemory := by
  cases he with
  | inputError | explicitHalt | zeroDivisor => exact .inr ⟨_, rfl, nofun⟩
  | outOfBounds _ hn => exact absurd hi hn
  | _ => exact .inl rfl

/-- Settles O44: an operand is two digits, and the step's own two signals are others. -/
theorem noStepRunsOutOfMemory : Obligations.NoStepRunsOutOfMemory := by
  refine ⟨fun w i hd => ⟨decode_operand_le hd, checkBound_of_lt (decode_operand_lt_capacity hd)⟩,
    fun s t _ hterm hstep r hr => ?_⟩
  have hkey : t.term = s.term ∨ ∃ r, t.term = some r ∧ r.signal ≠ .outOfMemory := by
    obtain rfl | ⟨-, -, rfl⟩ | ⟨-, -, -, rfl⟩ | ⟨i, -, -, hd, -, hexec⟩ := step_next hstep
    · exact .inl rfl
    · exact .inr ⟨_, rfl, nofun⟩
    · exact .inr ⟨_, rfl, nofun⟩
    · exact (exec_effect hexec).term_of_inBounds (decode_operand_lt_capacity hd)
  obtain heq | ⟨r', hr', hne⟩ := hkey
  · rw [heq, hterm] at hr
    cases hr
  · obtain rfl : r' = r := Option.some.inj (hr'.symm.trans hr)
    exact hne

/-- Settles O39: a step writes memory at a decoded operand or not at all. -/
theorem stepKeepsMemoryCanonical : Obligations.StepKeepsMemoryCanonical := by
  intro s t hw hstep
  obtain rfl | ⟨-, -, rfl⟩ | ⟨-, -, -, rfl⟩ | ⟨i, -, -, hd, -, hexec⟩ := step_next hstep
  · exact hw
  · exact hw
  · exact hw
  · obtain hm | ⟨-, v, hm⟩ := (exec_effect hexec).mem_cases
    · rw [State.MemCanonical, hm]; exact hw
    · rw [State.MemCanonical, hm]; exact Memory.write_wf hw (decode_operand_lt_capacity hd) v

/-! ## A stored word is fetched (spec/20_memory.md R54) -/

/-- Whether an instruction waits depends on the answers alone. -/
theorem awaitsInput_congr {s t : State} (h : t.input = s.input) (i : Instr) : awaitsInput t i = awaitsInput s i := by
  cases i with
  | input n => simp only [awaitsInput, h]
  | _ => rfl

/-- Settles O50: the STORE leaves `pc` at the address it wrote. -/
theorem storedWordIsFetchedNext : Obligations.StoredWordIsFetchedNext := by
  intro s t i hrun hb hd hstep hi hw
  have hnext : s.pc + 1 < capacity := decode_operand_lt_capacity hd
  rw [step_exec hrun (Nat.lt_of_succ_lt hnext) hd rfl, exec_store, storeOperand_inBounds hnext, retire_success,
    Host.Outcome.next.injEq] at hstep
  have hrun' : t.run = .running := by rw [← hstep]; exact hrun
  have hpc : t.pc = s.pc + 1 := by rw [← hstep]; rfl
  have hfetch : t.mem.read t.pc = s.acc := by rw [← hstep]; exact Memory.read_write_same _ _ _
  have hinput : t.input = s.input := by rw [← hstep]; rfl
  rw [step_exec hrun' (hpc ▸ hnext) (by rw [hfetch, hi]) ((awaitsInput_congr hinput i).trans hw), hfetch, State.setIr]

/-! ## A step with another memory (spec/20_memory.md R44) -/

/-- The state with other words in memory. -/
def State.setMem (s : State) (m : Memory) : State := { s with mem := m }

@[simp] theorem State.setMem_mem (s : State) (m : Memory) : (s.setMem m).mem = m := rfl
@[simp] theorem State.setMem_params (s : State) (m : Memory) : (s.setMem m).params = s.params := rfl
@[simp] theorem State.setMem_input (s : State) (m : Memory) : (s.setMem m).input = s.input := rfl

/-- The outcome that leaves the state `f` makes of the one left. -/
def mapOutcome (f : State → State) : Host.Outcome State Fault Refusal → Host.Outcome State Fault Refusal
  | .next t    => .next (f t)
  | .fault e   => .fault (e.mapLeft f)
  | .refused r => .refused r

section OtherMemory

variable {s : State} {m : Memory} {n : Nat}

theorem retire_settleAcc_setMem (r : Int) : retire (s.setMem m) (settleAcc (s.setMem m) r) =
    mapOutcome (·.setMem m) (retire s (settleAcc s r)) := by
  unfold settleAcc
  rw [State.setMem_params]
  split
  · rfl
  · split <;> rfl

theorem retire_divisorZero_setMem : retire (s.setMem m) (divisorZero (s.setMem m)) =
    mapOutcome (·.setMem m) (retire s (divisorZero s)) := by
  unfold divisorZero
  rw [State.setMem_params]
  split <;> rfl

theorem retire_settleModOverflow_setMem : retire (s.setMem m) (settleModOverflow (s.setMem m)) =
    mapOutcome (·.setMem m) (retire s (settleModOverflow s)) := by
  unfold settleModOverflow
  rw [State.setMem_params]
  split <;> rfl

theorem retire_jumpIf_setMem (b : Bool) : retire (s.setMem m) (jumpIf b n (s.setMem m)) =
    mapOutcome (·.setMem m) (retire s (jumpIf b n s)) := by
  unfold jumpIf
  split
  · cases b <;> rfl
  · rfl

/-- What uses the word at `n` does not see the rest of memory. -/
theorem retire_withOperand_setMem {use use' : Int → UnitResult} (hread : m.read n = s.mem.read n)
    (huse : ∀ y, retire (s.setMem m) (use' y) = mapOutcome (·.setMem m) (retire s (use y))) :
    retire (s.setMem m) (withOperand n (s.setMem m) use') =
      mapOutcome (·.setMem m) (retire s (withOperand n s use)) := by
  unfold withOperand
  split
  · rw [State.setMem_mem, hread]
    exact huse _
  · rfl

/-- An instruction that writes no memory sees the word at its operand, and carries the rest of memory along. -/
theorem exec_setMem {i : Instr} (hi : i ∉ memWriters i.operand) (hread : m.read i.operand = s.mem.read i.operand) :
    exec i (s.setMem m) = mapOutcome (·.setMem m) (exec i s) := by
  cases i with
  | nop | flat | halt => rfl
  | output n | load n | setA n | setB n =>
    simp only [exec_output, exec_load, exec_setA, exec_setB]
    exact retire_withOperand_setMem hread fun _ => rfl
  | add n | sub n | mul n =>
    simp only [exec_add, exec_sub, exec_mul]
    exact retire_withOperand_setMem hread fun _ => retire_settleAcc_setMem _
  | div n =>
    simp only [exec_div]
    refine retire_withOperand_setMem hread fun y => ?_
    split
    · exact retire_divisorZero_setMem
    · exact retire_settleAcc_setMem _
  | mod n =>
    simp only [exec_mod]
    refine retire_withOperand_setMem hread fun y => ?_
    split
    · exact retire_divisorZero_setMem
    · by_cases hov : s.acc = wmin s.params.wordBits ∧ y = -1
      · rw [if_pos hov]
        exact (congrArg (retire _) (if_pos hov)).trans retire_settleModOverflow_setMem
      · rw [if_neg hov]
        exact congrArg (retire _) (if_neg hov)
  | jmp n | jz n =>
    simp only [exec_jmp, exec_jz]
    exact retire_jumpIf_setMem _
  | input n | store n | and n | or n | xor n | not n => simp [memWriters, Instr.operand] at hi

/-- Two outcomes that are the same but for the memory they leave: `m₀` and `m`, or both after one same write. -/
def SameBut (m₀ m : Memory) (o o' : Host.Outcome State Fault Refusal) : Prop :=
  (∃ p, o = mapOutcome (·.setMem m₀) p ∧ o' = mapOutcome (·.setMem m) p) ∨
    ∃ (t : State) (n : Nat) (v : Int), o = .next (t.setMem (m₀.write n v)) ∧ o' = .next (t.setMem (m.write n v))

/-- From a next state: another, which differs from it in memory only, and only where `m` and `m₀` do. -/
theorem SameBut.next {m₀ : Memory} {t : State} {o' : Host.Outcome State Fault Refusal}
    (h : SameBut m₀ m (.next t) o') :
    ∃ m' : Memory, o' = .next (t.setMem m') ∧ ∀ a, m.read a = m₀.read a → m'.read a = t.mem.read a := by
  obtain ⟨p, ho, rfl⟩ | ⟨u, n, v, ho, rfl⟩ := h
  · cases p with
    | next u => cases ho; exact ⟨m, rfl, fun _ ha => ha⟩
    | fault | refused => cases ho
  · cases ho
    exact ⟨m.write n v, rfl, fun a ha => by rw [State.setMem_mem, Memory.read_write, Memory.read_write, ha]⟩

/-- From a fault: one for the same reason. -/
theorem SameBut.fault {m₀ : Memory} {f : Fault} {o' : Host.Outcome State Fault Refusal}
    (h : SameBut m₀ m (.fault f) o') : o' = .fault (f.mapLeft (·.setMem m)) := by
  obtain ⟨p, ho, rfl⟩ | ⟨u, n, v, ho, -⟩ := h
  · cases p with
    | fault e => cases ho; cases e <;> rfl
    | next | refused => cases ho
  · cases ho

theorem sameBut_storeOperand (v : Int) :
    SameBut s.mem m (retire s (storeOperand n v s)) (retire (s.setMem m) (storeOperand n v (s.setMem m))) := by
  unfold storeOperand
  split
  · exact .inr ⟨s.setPc (s.pc + 1), n, v, rfl, rfl⟩
  · exact .inl ⟨.next (s.haltSignal .outOfMemory), rfl, rfl⟩

theorem sameBut_execInput : SameBut s.mem m (execInput n s) (execInput n (s.setMem m)) := by
  unfold execInput receive
  rw [State.setMem_params, State.setMem_input]
  split
  · split
    · exact .inl ⟨.next s, rfl, rfl⟩
    · split
      next v _ => exact .inr ⟨s.takeAnswer.setPc (s.pc + 1), n, v, rfl, rfl⟩
      next => exact .inl ⟨.next (s.takeAnswer.haltSignal .other), rfl, rfl⟩
  · exact .inl ⟨.next (s.haltSignal .outOfMemory), rfl, rfl⟩

theorem sameBut_exec_memWriter : ∀ i ∈ memWriters n, SameBut s.mem m (exec i s) (exec i (s.setMem m)) := by
  simp only [memWriters, List.forall_mem_cons, exec_input, exec_store, exec_and, exec_or, exec_xor, exec_not]
  exact ⟨sameBut_execInput, sameBut_storeOperand _, sameBut_storeOperand _, sameBut_storeOperand _,
    sameBut_storeOperand _, sameBut_storeOperand _, nofun⟩

/-- An instruction does the same over two memories that agree at its operand. -/
theorem sameBut_exec (i : Instr) (hread : m.read i.operand = s.mem.read i.operand) :
    SameBut s.mem m (exec i s) (exec i (s.setMem m)) := by
  by_cases hi : i ∈ memWriters i.operand
  · exact sameBut_exec_memWriter i hi
  · exact .inl ⟨exec i s, exec_setMem (m := s.mem) hi rfl, exec_setMem hi hread⟩

/-- A step does the same over two memories that agree at `pc` and at every operand. -/
theorem sameBut_step (h : ∀ a : Nat, a ≤ 99 ∨ a = s.pc → m.read a = s.mem.read a) :
    SameBut s.mem m (step s) (step (s.setMem m)) := by
  have hfetch : m.read s.pc = s.mem.read s.pc := h _ (.inr rfl)
  have hd {o : Option Instr} (ho : decode (s.mem.read s.pc) = o) : decode ((s.setMem m).mem.read s.pc) = o := by
    rw [State.setMem_mem, hfetch, ho]
  obtain hr | ⟨hr, hb⟩ | ⟨hr, hb, hi⟩ | ⟨i, hr, hb, hi, hw⟩ | ⟨i, hr, hb, hi, hw⟩ := step_cases s
  · rw [step_halted hr, step_halted (s := s.setMem m) hr]
    exact .inl ⟨.next s, rfl, rfl⟩
  · rw [step_endOfProgram hr hb, step_endOfProgram (s := s.setMem m) hr hb]
    exact .inl ⟨.next (s.haltSignal .endOfProgram), rfl, rfl⟩
  · rw [step_invalid hr hb hi, step_invalid (s := s.setMem m) hr hb (hd hi), ← hfetch]
    exact .inl ⟨.next ((s.setIr (m.read s.pc)).haltSignal .invalidOpcode), rfl, rfl⟩
  · rw [step_held hr hb hi hw, step_held (s := s.setMem m) hr hb (hd hi) ((awaitsInput_congr rfl i).trans hw)]
    exact .inl ⟨.next s, rfl, rfl⟩
  · rw [step_exec hr hb hi hw, step_exec (s := s.setMem m) hr hb (hd hi) ((awaitsInput_congr rfl i).trans hw),
      ← hfetch]
    exact sameBut_exec (s := s.setIr (m.read s.pc)) i (h _ (.inl (decode_operand_le hi)))

end OtherMemory

/-! ## Addresses from 100 up (spec/20_memory.md R44) -/

section HighAddresses

variable {s t : State}

theorem step_read_high (h : step s = .next t) {a : Nat} (ha : 100 ≤ a) : t.mem.read a = s.mem.read a := by
  by_contra hne
  obtain ⟨i, hi, hd⟩ := writer_of_step_changes_read h hne
  have hle := decode_operand_le hd
  rw [operand_of_mem_memWriters i hi] at hle
  omega

theorem nextPc_of_operand_le {i : Instr} (hi : i.operand ≤ 99) : nextPc s i = s.pc + 1 ∨ nextPc s i ≤ 99 := by
  obtain ⟨n, rfl | ⟨rfl, -⟩, hn⟩ | ⟨-, -, hpc⟩ := nextPc_cases s i
  · exact .inr (hn.trans_le hi)
  · exact .inr (hn.trans_le hi)
  · exact .inl hpc

theorem step_pc_cases (h : step s = .next t) : t.pc = s.pc ∨ t.pc = s.pc + 1 ∨ t.pc ≤ 99 := by
  obtain rfl | ⟨-, -, rfl⟩ | ⟨-, -, -, rfl⟩ | ⟨i, -, -, hd, -, hexec⟩ := step_next h
  · exact .inl rfl
  · exact .inl rfl
  · exact .inl rfl
  · obtain ⟨-, -, hpc⟩ | ⟨-, rfl⟩ | ⟨-, -, hpc⟩ := (exec_effect hexec).control
    · exact .inl hpc
    · exact .inl rfl
    · rw [hpc]
      exact .inr (nextPc_of_operand_le (decode_operand_le hd))

end HighAddresses

/-- Settles O49: a decoded operand is at most 99, and a step sees memory at `pc` and at its operand only. -/
theorem highAddressesAreOnlyFetched : Obligations.HighAddressesAreOnlyFetched := by
  refine ⟨fun s t h => ⟨fun a => step_read_high h, step_pc_cases h⟩,
    fun s m hm => ⟨fun t ht => ?_, fun f hf => ?_⟩⟩
  · have hsame := sameBut_step hm
    rw [ht] at hsame
    obtain ⟨m', hstep, hlow⟩ := hsame.next
    exact ⟨m', hstep, fun a ha => hlow a (hm a (.inl ha)), fun a => step_read_high hstep⟩
  · have hsame := sameBut_step hm
    rw [hf] at hsame
    exact hsame.fault

end Sys2Proof.Machine
end

section
/-! Encoding and decoding are inverse, and which words are illegal (spec/30_encoding.md R61, R64-R68). -/

namespace Sys2Proof.Machine

open Laws.FieldsOfEncode (fields_of_word statement_of_opcode)

/-! ## The pair of an instruction (spec/30_encoding.md R65, R66) -/

/-- An opcode is two decimal digits. -/
theorem opcode_lt_hundred (i : Instr) : i.opcode < 100 := by
  cases i <;> simp [Instr.opcode]

/-- The range of an instruction's opcode belongs to its unit. -/
theorem unitOfOpcode_opcode (i : Instr) : unitOfOpcode i.opcode = some i.unit := by
  cases i <;> rfl

/-- The pair of an instruction stands for it. -/
theorem instrOfFields_opcode_operand (i : Instr) : instrOfFields i.opcode i.operand = .ofInstr i := by
  cases i <;> rfl

section Fields

variable {op n : Nat} {i : Instr}

/-- An instruction read from a pair has the pair's opcode: in each unit every opcode it knows does. -/
theorem opcode_of_instrOfFields (h : (instrOfFields op n).instr? = some i) : i.opcode = op := by
  revert h
  unfold instrOfFields
  split
  · unfold controlInstr; split_ifs <;> rintro ⟨⟩ <;> simp [Instr.opcode, *]
  · unfold ioInstr; split_ifs <;> rintro ⟨⟩ <;> simp [Instr.opcode, *]
  · unfold arithmeticInstr; split_ifs <;> rintro ⟨⟩ <;> simp [Instr.opcode, *]
  · unfold extendedInstr; split_ifs <;> rintro ⟨⟩ <;> simp [Instr.opcode, *]
  · rintro ⟨⟩

/-- A pair stands for `i` exactly where it is the pair of `i`. -/
theorem instr?_instrOfFields_eq_some_iff :
    (instrOfFields op n).instr? = some i ↔ i.opcode = op ∧ i.operand = n := by
  refine ⟨fun h => ⟨opcode_of_instrOfFields h, operand_of_instrOfFields h⟩, ?_⟩
  rintro ⟨rfl, rfl⟩
  exact DecodedWord.instr?_eq_some_iff.2 (instrOfFields_opcode_operand i)

/-- Whether a pair is an instruction depends on its opcode alone. -/
theorem instrOfFields_eq_invalid_iff_zero : instrOfFields op n = .invalid ↔ instrOfFields op 0 = .invalid := by
  unfold instrOfFields
  split
  · unfold controlInstr; split_ifs <;> simp
  · unfold ioInstr; split_ifs <;> simp
  · unfold arithmeticInstr; split_ifs <;> simp
  · unfold extendedInstr; split_ifs <;> simp
  · simp

/-- The 80 opcodes of R67 are those that no unit knows. -/
theorem instrOfFields_eq_invalid_iff (hop : op < 100) :
    instrOfFields op n = .invalid ↔ illegalOpcode op = true := by
  have hzero : ∀ op < 100, instrOfFields op 0 = .invalid ↔ illegalOpcode op = true := by decide
  exact instrOfFields_eq_invalid_iff_zero.trans (hzero op hop)

end Fields

/-! ## Words and instructions -/

section Words

variable {w : Int} {i : Instr}

theorem wellFormed_iff : i.wellFormed = true ↔ i.operand ≤ 99 := by
  rw [Instr.wellFormed, decide_eq_true_iff, Nat.lt_succ_iff]

theorem decode_of_decodeFields {op n : Nat} (h : decodeFields w = some (op, n)) :
    decode w = (instrOfFields op n).instr? := by
  rw [decode, decodeWord, h]

theorem decode_encode (hi : i.wellFormed = true) : decode (encode i) = some i := by
  rw [decode_of_decodeFields (statement_of_opcode (opcode_lt_hundred i) hi), instr?_instrOfFields_eq_some_iff]
  exact ⟨rfl, rfl⟩

theorem range_of_decode (h : decode w = some i) : 0 ≤ w ∧ w ≤ 9999 := by
  by_contra hw
  rw [decode_of_not_range hw] at h
  cases h

/-- A word that decodes has the opcode and the operand of its instruction as its digit pairs. -/
theorem fields_of_decode (h : decode w = some i) : i.opcode = w.toNat / 100 ∧ i.operand = w.toNat % 100 := by
  rw [decode_of_range (range_of_decode h)] at h
  exact instr?_instrOfFields_eq_some_iff.1 h

theorem encode_of_decode (h : decode w = some i) : encode i = w := by
  obtain ⟨hlow, -⟩ := range_of_decode h
  obtain ⟨hop, hn⟩ := fields_of_decode h
  rw [encode, hop, hn]
  omega

/-- A word is illegal exactly where it is not four digits or its opcode is one of R67. -/
theorem decode_eq_none_iff_illegal :
    decode w = none ↔ w < 0 ∨ 9999 < w ∨ illegalOpcode (w.toNat / 100) = true := by
  by_cases hw : 0 ≤ w ∧ w ≤ 9999
  · rw [decode_of_range hw, DecodedWord.instr?_eq_none_iff, instrOfFields_eq_invalid_iff (by omega),
      or_iff_right (by omega), or_iff_right (by omega)]
  · refine iff_of_true (decode_of_not_range hw) ?_
    omega

end Words

/-! ## The obligations -/

/-- Settles O1: the digit pairs of the word are the opcode and the operand, and that pair stands for the
instruction. -/
theorem decodeOfEncodeReturnsTheInstruction : Obligations.DecodeOfEncodeReturnsTheInstruction :=
  fun _ => decode_encode

/-- Settles O2: only a four-digit word decodes, and its digit pairs are its instruction's opcode and operand. -/
theorem encodeOfDecodeReturnsTheWord : Obligations.EncodeOfDecodeReturnsTheWord := by
  intro w i h
  obtain ⟨hlow, hhigh⟩ := range_of_decode h
  obtain ⟨hop, -⟩ := fields_of_decode h
  exact ⟨encode_of_decode h, wellFormed_iff.2 (decode_operand_le h), hlow, hhigh, hop ▸ unitOfOpcode_opcode i⟩

/-- Settles O3: the words that decode to nothing are the illegal ones, and the step has one case for them. -/
theorem illegalWordsHaltWithInvalidOpcode : Obligations.IllegalWordsHaltWithInvalidOpcode := by
  refine ⟨fun w => decode_eq_none_iff_illegal, fun s hrun hb hillegal => ?_⟩
  have hpc : s.pc < capacity := by simpa using hb
  exact step_invalid hrun hpc (decode_eq_none_iff_illegal.2 hillegal)

/-- Settles O4: four digits are two digit pairs, the high one times 100 plus the low one. -/
theorem decimalDigitsGiveOpcodeAndOperand : Obligations.DecimalDigitsGiveOpcodeAndOperand := by
  refine ⟨fun d3 d2 d1 d0 h3 h2 h1 h0 => ?_, fun i => rfl⟩
  have hpairs : 1000 * d3 + 100 * d2 + 10 * d1 + d0 = (d3 * 10 + d2) * 100 + (d1 * 10 + d0) := by ring
  rw [hpairs]
  exact fields_of_word (by omega) (by omega)

/-- Settles O5: each row's word is the encoding of the row's instruction. -/
theorem wordsOfTheOpcodeMapDecode : Obligations.WordsOfTheOpcodeMapDecode := by
  refine ⟨fun n hn => ?_, by decide⟩
  have row (i : Instr) (hi : i.operand = n) : decode ((i.opcode * 100 : Nat) + n) = some i := by
    rw [← Nat.cast_add, ← hi]
    exact decode_encode (wellFormed_iff.2 (hi.trans_le hn))
  have hnop : decode n = some (.nop n) := by simpa [Instr.opcode] using row (.nop n) rfl
  exact ⟨hnop, row (.input n) rfl, row (.output n) rfl, row (.load n) rfl, row (.store n) rfl, row (.add n) rfl,
    row (.sub n) rfl, row (.mul n) rfl, row (.div n) rfl, row (.mod n) rfl, row (.jmp n) rfl, row (.jz n) rfl,
    row (.halt n) rfl, row (.setA n) rfl, row (.setB n) rfl, row (.flat n) rfl, row (.and n) rfl, row (.or n) rfl,
    row (.xor n) rfl, row (.not n) rfl⟩

end Sys2Proof.Machine
end

section
/-! The control unit: what its instructions answer, the word a step fetches and runs, and how a run ends
(spec/40_control.md R81-R90). -/

namespace Sys2Proof.Machine

/-! ## The control unit's instructions (spec/40_control.md R86-R89) -/

section ControlInstructions

variable {s t : State} {i : Instr} {n : Nat}

theorem lt_capacity_of_checkBound (h : checkBound n = true) : n < capacity := by simpa using h

theorem not_lt_capacity_of_checkBound (h : checkBound n = false) : ¬ n < capacity := by simpa using h

theorem exec_nop_next (n : Nat) (s : State) : exec (.nop n) s = .next (s.setPc (s.pc + 1)) :=
  (exec_nop n s).trans (retire_success s s)

theorem exec_halt_next (n : Nat) (s : State) : exec (.halt n) s = .next (s.halt .explicitHalt (exitCodeOf n)) :=
  (exec_halt n s).trans (retire_explicitHalt s _)

/-- A jump that is taken goes to its checked target. -/
theorem exec_jump_taken (hj : i = .jmp n ∨ (i = .jz n ∧ s.acc = 0)) (hn : n < capacity) :
    exec i s = .next (s.setPc n) := by
  obtain rfl | ⟨rfl, hz⟩ := hj
  · rw [exec_jmp, jumpIf_taken hn, retire_jumped]
  · rw [exec_jz, accIsZero_of_zero hz, jumpIf_taken hn, retire_jumped]

theorem exec_jz_notTaken (hz : s.acc ≠ 0) (hn : n < capacity) : exec (.jz n) s = .next (s.setPc (s.pc + 1)) := by
  rw [exec_jz, accIsZero_of_ne hz, jumpIf_notTaken hn, retire_success]

theorem exec_jmp_outOfBounds (hn : ¬ n < capacity) (s : State) :
    exec (.jmp n) s = .next (s.haltSignal .outOfMemory) :=
  exec_jump_outOfBounds hn s _ (by simp [jumps])

theorem exec_jz_outOfBounds (hn : ¬ n < capacity) (s : State) :
    exec (.jz n) s = .next (s.haltSignal .outOfMemory) :=
  exec_jump_outOfBounds hn s _ (by simp [jumps])

/-- A jump that is taken to its own address changes nothing but `ir`: the fetch loads it and the jump sets `pc` to the
value it has. -/
theorem step_jump_self (hj : i = .jmp s.pc ∨ (i = .jz s.pc ∧ s.acc = 0)) (hrun : s.run = .running)
    (hpc : s.pc < capacity) (hd : decode (s.mem.read s.pc) = some i) :
    step s = .next (s.setIr (s.mem.read s.pc)) := by
  have hw : awaitsInput s i = false := by obtain rfl | ⟨rfl, -⟩ := hj <;> rfl
  rw [step_exec hrun hpc hd hw, exec_jump_taken (s := s.setIr (s.mem.read s.pc)) hj hpc]
  rfl

end ControlInstructions

/-- Settles O6: 0..99 is the first row of the opcode map, and 127 is the last address that passes the check. -/
theorem nopOnlyAdvancesPc : Obligations.NopOnlyAdvancesPc := by
  refine ⟨exec_nop_next, fun n hn => ?_, fun n s t hrun hpc hexec => ?_⟩
  · obtain ⟨hnop, -⟩ := wordsOfTheOpcodeMapDecode.1 n hn
    exact hnop
  · rw [exec_nop_next, Host.Outcome.next.injEq] at hexec
    subst hexec
    exact step_endOfProgram hrun (by simp [hpc])

/-- Settles O7: the jump that is always taken, in bounds and out. -/
theorem jmpSetsPcToTheOperand : Obligations.JmpSetsPcToTheOperand := by
  refine fun n s => ⟨fun hb => exec_jump_taken (.inl rfl) (lt_capacity_of_checkBound hb),
    fun hb => exec_jmp_outOfBounds (not_lt_capacity_of_checkBound hb) s,
    fun hb => exec_jz_outOfBounds (not_lt_capacity_of_checkBound hb) s, fun hrun hpc hb hd => ?_⟩
  subst hpc
  exact step_jump_self (.inl rfl) hrun (lt_capacity_of_checkBound hb) hd

/-- Settles O8: the jump that is taken where `acc` is zero; its bounds check does not depend on `acc`. -/
theorem jzJumpsExactlyWhenAccIsZero : Obligations.JzJumpsExactlyWhenAccIsZero := by
  refine fun n s => ⟨fun hb hz => exec_jump_taken (.inr ⟨rfl, hz⟩) (lt_capacity_of_checkBound hb),
    fun hb hz => exec_jz_notTaken hz (lt_capacity_of_checkBound hb),
    fun hb => exec_jz_outOfBounds (not_lt_capacity_of_checkBound hb) s, fun hrun hpc hb hz hd => ?_⟩
  subst hpc
  exact step_jump_self (.inr ⟨rfl, hz⟩) hrun (lt_capacity_of_checkBound hb) hd

/-! ## The record of a halt (spec/40_control.md R89, spec/60_exceptions.md R155) -/

section Record

variable {s t : State} {i : Instr}

/-- An operand of two digits fits the exit code with no conversion. -/
theorem exitCodeOf_toInt {n : Nat} (hn : n ≤ 99) : (exitCodeOf n).toInt = n := by
  rw [exitCodeOf, BitVec.toInt_ofNat', Int.bmod_eq_of_le] <;> omega

/-- `term` goes from `old` to `new`, if at all, by the HALT that `fetched` names or by another signal with its own
code. -/
def TermWrite (codes : SignalCodes) (fetched : Option Instr) (old new : Option TerminationRecord) : Prop :=
  new = old ∨ (∃ n, fetched = some (.halt n) ∧ new = some ⟨exitCodeOf n, .explicitHalt⟩) ∨
    ∃ g, new = some ⟨codes.code g, g⟩ ∧ g ≠ .explicitHalt

/-- HALT alone records EXPLICIT_HALT. -/
theorem Effect.termWrite (he : Effect s i t) : TermWrite s.params.codes (some i) s.term t.term := by
  cases he with
  | explicitHalt n => exact .inr (.inl ⟨n, rfl, rfl⟩)
  | inputError | zeroDivisor | outOfBounds => exact .inr (.inr ⟨_, rfl, nofun⟩)
  | _ => exact .inl rfl

theorem step_termWrite (h : step s = .next t) :
    TermWrite s.params.codes (decode (s.mem.read s.pc)) s.term t.term := by
  obtain rfl | ⟨-, -, rfl⟩ | ⟨-, -, -, rfl⟩ | ⟨i, -, -, hd, -, hexec⟩ := step_next h
  · exact .inl rfl
  · exact .inr (.inr ⟨_, rfl, nofun⟩)
  · exact .inr (.inr ⟨_, rfl, nofun⟩)
  · rw [hd]
    exact (exec_effect hexec).termWrite

end Record

/-- Settles O9: HALT's own meaning, and the three ways a step can write `term`. -/
theorem haltRecordsItsOperand : Obligations.HaltRecordsItsOperand := by
  refine ⟨exec_halt_next, fun n => exitCodeOf_toInt, fun s t r _ hterm hstep hr => ?_⟩
  have hwrite := step_termWrite hstep
  rw [hterm, hr] at hwrite
  obtain hsame | ⟨n, hd, hrec⟩ | ⟨g, hrec, hg⟩ := hwrite
  · cases hsame
  · cases hrec
    exact .inl ⟨rfl, n, hd, rfl⟩
  · cases hrec
    exact .inr ⟨hg, rfl⟩

/-! ## The step's status (spec/40_control.md R81, R85) -/

section Status

variable {s t : State}

theorem stepStatus_of_halted (h : s.run = .halted) : stepStatus s = .alreadyStopped := by
  simp [stepStatus, statusOf, h]

variable (hrun : s.run = .running) (hh : isHeld s = false)

include hrun hh

theorem stepStatus_of_next (hstep : step s = .next t) :
    stepStatus s = if t.run = .halted then .stopped else .continued := by
  simp [stepStatus, statusOf, hrun, hh, hstep]

theorem stepStatus_of_fault {f : Fault} (hstep : step s = .fault f) : stepStatus s = .fault := by
  simp [stepStatus, statusOf, hrun, hh, hstep]

end Status

/-- A `pc` out of bounds fetches nothing that could wait. -/
theorem isHeld_of_pc_outOfBounds {s : State} (hpc : ¬ s.pc < capacity) : isHeld s = false :=
  Bool.eq_false_iff.2 fun hh => hpc (isHeld_iff.1 hh).2.1

/-- Settles O31: the step's case for an instruction that runs, and the status of each outcome. -/
theorem stepRunsTheDecodedInstruction : Obligations.StepRunsTheDecodedInstruction := by
  refine ⟨fun s i hrun hb hd hw => step_exec hrun (lt_capacity_of_checkBound hb) hd hw,
    fun s hrun hh => ⟨fun t hstep ht => ?_, fun t hstep ht => ?_, fun f => stepStatus_of_fault hrun hh⟩⟩
  · rw [stepStatus_of_next hrun hh hstep, ht, if_neg nofun]
  · rw [stepStatus_of_next hrun hh hstep, if_pos ht]

/-- Settles O33: a step of a halted machine answers that machine, so by induction nothing else is reached. -/
theorem haltedMachineStaysInert : Obligations.HaltedMachineStaysInert := by
  refine ⟨fun s hs => ⟨step_halted hs, stepStatus_of_halted hs⟩, fun s t hs hreach => ?_⟩
  refine reaches_induction (P := (· = s)) (fun a b ha hstep => ?_) hreach rfl
  subst ha
  rw [step_halted hs, Host.Outcome.next.injEq] at hstep
  exact hstep.symm

/-- Settles O34: the step's case for a failed check, which answers a halted state. -/
theorem pcOutOfBoundsEndsTheProgram : Obligations.PcOutOfBoundsEndsTheProgram := by
  intro s hrun hb
  have hpc : ¬ s.pc < capacity := not_lt_capacity_of_checkBound hb
  have hstep := step_endOfProgram hrun hpc
  have hstatus := stepStatus_of_next hrun (isHeld_of_pc_outOfBounds hpc) hstep
  exact ⟨hstep, hstatus.trans (if_pos (State.haltSignal_run s _))⟩

/-! ## The placed word (notes/assumptions/17.md) -/

theorem withFetchWord_of_checkBound {s : State} (hb : checkBound s.pc = true) (nbits w : Nat) :
    s.withFetchWord nbits w = s.storeWord s.pc (wordOfBits s.params.wordBits nbits w) := by
  rw [State.withFetchWord, placeWord, if_pos hb]

/-- A word stored at `pc` is the one the step fetches and runs. -/
theorem step_storeWord_pc {s : State} {i : Instr} {v : Int} (hrun : s.run = .running) (hpc : s.pc < capacity)
    (hd : decode v = some i) (hw : awaitsInput s i = false) :
    step (s.storeWord s.pc v) = exec i ((s.storeWord s.pc v).setIr v) := by
  have hfetch : (s.storeWord s.pc v).mem.read s.pc = v := Memory.read_write_same _ _ _
  have hstep := step_exec (s := s.storeWord s.pc v) (i := i) hrun hpc
  rw [State.storeWord_pc, hfetch] at hstep
  exact hstep hd ((awaitsInput_congr (State.storeWord_input _ _ _) i).trans hw)

/-- Settles O32: placing a word is a store at `pc`, which the fetch reads back and no other address sees. -/
theorem placedWordIsTheNextInstruction : Obligations.PlacedWordIsTheNextInstruction := by
  intro s nbits w i hbits hrun hb hd hw
  rw [withFetchWord_of_checkBound hb, hbits]
  exact ⟨step_storeWord_pc hrun (lt_capacity_of_checkBound hb) hd hw, fun a ha => Memory.read_write_ne _ ha _⟩

end Sys2Proof.Machine
end

section
/-! The arithmetic unit: division rounded toward zero, the edges of the Word range, what each instruction answers, and
the ways a step faults (spec/41_arithmetic.md R100-R112, spec/60_exceptions.md R157, R166). -/

namespace Sys2Proof.Machine

/-! ## Quotient and remainder (spec/41_arithmetic.md R102) -/

section Division

variable {x y : Int}

theorem quot_one (x : Int) : quot x 1 = x := Int.tdiv_one x

theorem quot_neg (x y : Int) : quot x (-y) = -quot x y := Int.tdiv_neg x y

theorem quot_neg_one (x : Int) : quot x (-1) = -x := by rw [quot_neg, quot_one]

theorem natAbs_quot (x y : Int) : (quot x y).natAbs = x.natAbs / y.natAbs := Int.natAbs_tdiv x y

theorem quot_nonneg (h : 0 ≤ x * y) : 0 ≤ quot x y := by
  obtain ⟨hx, hy⟩ | ⟨hx, hy⟩ := mul_nonneg_iff.1 h
  · exact Int.tdiv_nonneg hx hy
  · exact Int.tdiv_nonneg_of_nonpos_of_nonpos hx hy

theorem quot_nonpos (h : x * y ≤ 0) : quot x y ≤ 0 := by
  have hneg : 0 ≤ quot x (-y) := quot_nonneg (by rw [mul_neg]; omega)
  rw [quot_neg] at hneg
  omega

theorem rem_one (x : Int) : rem x 1 = 0 := by rw [rem_eq_tmod, Int.tmod_one]

theorem rem_neg_one (x : Int) : rem x (-1) = 0 := by rw [rem_eq_tmod, Int.tmod_neg, Int.tmod_one]

theorem natAbs_rem_lt (x : Int) (hy : y ≠ 0) : (rem x y).natAbs < y.natAbs := by
  rw [rem_eq_tmod, Int.natAbs_tmod]
  exact Nat.mod_lt _ (Int.natAbs_pos.2 hy)

theorem rem_nonneg (y : Int) (hx : 0 ≤ x) : 0 ≤ rem x y := by
  rw [rem_eq_tmod]
  exact Int.tmod_nonneg y hx

theorem rem_nonpos (y : Int) (hx : x ≤ 0) : rem x y ≤ 0 := by
  have hneg : 0 ≤ (-x).tmod y := Int.tmod_nonneg y (by omega)
  rw [Int.neg_tmod] at hneg
  rw [rem_eq_tmod]
  omega

/-- A remainder other than 0 has the sign of the dividend. -/
theorem rem_sign (x y : Int) : rem x y = 0 ∨ (0 < rem x y ∧ 0 < x) ∨ (rem x y < 0 ∧ x < 0) := by
  have hnonneg : 0 ≤ x → 0 ≤ rem x y := rem_nonneg y
  have hnonpos : x ≤ 0 → rem x y ≤ 0 := rem_nonpos y
  omega

end Division

/-- Settles O17: the size of a quotient and of a remainder, and their signs, each by its own lemma. -/
theorem quotientRoundsTowardZero : Obligations.QuotientRoundsTowardZero :=
  fun x y hy => ⟨rfl, natAbs_quot x y, quot_nonneg, quot_nonpos, natAbs_rem_lt x hy, rem_sign x y⟩

/-! ## The edges of the Word range (spec/00_scope.md R12, spec/41_arithmetic.md R101) -/

section Edges

variable {bits : Nat} {x y : Int}

theorem wmin_neg (bits : Nat) : wmin bits < 0 := by
  rw [wmin, neg_lt_zero]
  positivity

theorem neg_wmin (bits : Nat) : -wmin bits = wmax bits + 1 := by
  rw [wmin, wmax]
  omega

theorem inWord_wmin (bits : Nat) : inWord bits (wmin bits) = true := by
  have hneg := wmin_neg bits
  have hmax := neg_wmin bits
  rw [inWord_iff]
  omega

theorem inWord_wmax (bits : Nat) : inWord bits (wmax bits) = true := by
  have hneg := wmin_neg bits
  have hmax := neg_wmin bits
  rw [inWord_iff]
  omega

theorem not_inWord_wmax_add_one (bits : Nat) : inWord bits (wmax bits + 1) = false := by
  rw [← Bool.not_eq_true, inWord_iff]
  omega

theorem not_inWord_wmin_sub_one (bits : Nat) : inWord bits (wmin bits + -1) = false := by
  rw [← Bool.not_eq_true, inWord_iff]
  omega

/-- 2^WORD_BITS is the number of Words. -/
theorem wmax_add_one_sub_wmin (h : 1 ≤ bits) : wmax bits + 1 - wmin bits = 2 ^ bits := by
  rw [← neg_wmin, two_pow_bits h, wmin]
  ring

theorem wrap_wmax_add_one (h : 1 ≤ bits) : wrap bits (wmax bits + 1) = wmin bits := by
  have hdvd : (2 ^ bits : Int) ∣ wmax bits + 1 - wmin bits := by rw [wmax_add_one_sub_wmin h]
  rw [wrap_congr hdvd, wrap_of_inWord h (inWord_wmin bits)]

theorem wrap_wmin_sub_one (h : 1 ≤ bits) : wrap bits (wmin bits + -1) = wmax bits := by
  have hdvd : (2 ^ bits : Int) ∣ wmin bits + -1 - wmax bits := by
    rw [← wmax_add_one_sub_wmin h, ← dvd_neg]
    exact dvd_of_eq (by ring)
  rw [wrap_congr hdvd, wrap_of_inWord h (inWord_wmax bits)]

/-- A quotient of a Word is a Word, or its dividend is `WMIN` and its divisor -1: by any other divisor than 1 and -1 it
is nearer to zero than the dividend. -/
theorem quot_inWord (hx : inWord bits x = true) (h : x = wmin bits → y ≠ -1) : inWord bits (quot x y) = true := by
  have hneg := wmin_neg bits
  have hmax := neg_wmin bits
  by_cases h1 : y = 1
  · rwa [h1, quot_one]
  by_cases h2 : y = -1
  · have hne : x ≠ wmin bits := fun e => h e h2
    rw [h2, quot_neg_one]
    rw [inWord_iff] at hx ⊢
    omega
  by_cases hx0 : x = 0
  · rw [hx0, quot, Int.zero_tdiv]
    exact inWord_zero bits
  by_cases hy0 : y = 0
  · rw [hy0, quot, Int.tdiv_zero]
    exact inWord_zero bits
  · have hlt : (quot x y).natAbs < x.natAbs := by
      rw [natAbs_quot]
      exact Nat.div_lt_self (by omega) (by omega)
    rw [inWord_iff] at hx ⊢
    omega

/-- `WMIN / -1` is out of range. -/
theorem not_inWord_quot_wmin_neg_one (bits : Nat) : inWord bits (quot (wmin bits) (-1)) = false := by
  rw [quot_neg_one, neg_wmin, not_inWord_wmax_add_one]

/-- The quotient of a Word is out of range exactly at `WMIN / -1`. -/
theorem quot_not_inWord_iff (hx : inWord bits x = true) :
    inWord bits (quot x y) = false ↔ x = wmin bits ∧ y = -1 := by
  refine ⟨fun hq => ?_, ?_⟩
  · by_contra hne
    rw [quot_inWord hx fun hmin hy => hne ⟨hmin, hy⟩] at hq
    cases hq
  · rintro ⟨rfl, rfl⟩
    exact not_inWord_quot_wmin_neg_one bits

end Edges

/-- Settles O18: the rows of numbers by evaluation, the rows of `WMIN` and `WMAX` by division by 1 and by -1. -/
theorem divisionTableOfR112 : Obligations.DivisionTableOfR112 := by
  refine ⟨by decide, by decide, by decide, by decide, by decide, by decide, by decide, fun bits hbits => ?_⟩
  refine ⟨quot_one _, rem_one _, quot_neg_one _, rem_neg_one _, not_inWord_quot_wmin_neg_one bits, ?_⟩
  rw [quot_neg_one, neg_wmin, wrap_wmax_add_one (by omega)]

/-! ## LOAD and STORE (spec/41_arithmetic.md R104, R105) -/

section Instructions

variable {s : State} {n : Nat}

theorem exec_load_inBounds (hn : n < capacity) (s : State) :
    exec (.load n) s = .next ((s.setAcc (s.mem.read n)).setPc (s.pc + 1)) := by
  rw [exec_load, withOperand_inBounds hn, retire_success, State.setAcc_pc]

theorem exec_store_inBounds (hn : n < capacity) (s : State) :
    exec (.store n) s = .next ((s.storeWord n s.acc).setPc (s.pc + 1)) := by
  rw [exec_store, storeOperand_inBounds hn, retire_success, State.storeWord_pc]

/-! ## ADD, SUB, MUL, DIV and MOD in bounds (spec/41_arithmetic.md R106-R110)

Each comes down to what it does with its exact result, or with a zero divisor. -/

theorem exec_add_inBounds (hn : n < capacity) (s : State) :
    exec (.add n) s = retire s (settleAcc s (s.acc + s.mem.read n)) := by
  rw [exec_add, withOperand_inBounds hn]

theorem exec_sub_inBounds (hn : n < capacity) (s : State) :
    exec (.sub n) s = retire s (settleAcc s (s.acc - s.mem.read n)) := by
  rw [exec_sub, withOperand_inBounds hn]

theorem exec_mul_inBounds (hn : n < capacity) (s : State) :
    exec (.mul n) s = retire s (settleAcc s (s.acc * s.mem.read n)) := by
  rw [exec_mul, withOperand_inBounds hn]

theorem exec_div_inBounds (hn : n < capacity) (hy : s.mem.read n ≠ 0) :
    exec (.div n) s = retire s (settleAcc s (quot s.acc (s.mem.read n))) := by
  rw [exec_div, withOperand_inBounds hn, if_neg hy]

theorem exec_div_zero (hn : n < capacity) (hy : s.mem.read n = 0) :
    exec (.div n) s = retire s (divisorZero s) := by
  rw [exec_div, withOperand_inBounds hn, if_pos hy]

theorem exec_mod_inBounds (hn : n < capacity) (hy : s.mem.read n ≠ 0)
    (hov : ¬ (s.acc = wmin s.params.wordBits ∧ s.mem.read n = -1)) :
    exec (.mod n) s = .next ((s.setAcc (rem s.acc (s.mem.read n))).setPc (s.pc + 1)) := by
  rw [exec_mod, withOperand_inBounds hn, if_neg hy, if_neg hov, retire_success, State.setAcc_pc]

theorem exec_mod_overflow (hn : n < capacity) (hacc : s.acc = wmin s.params.wordBits) (hy : s.mem.read n = -1) :
    exec (.mod n) s = retire s (settleModOverflow s) := by
  have hy0 : s.mem.read n ≠ 0 := by omega
  rw [exec_mod, withOperand_inBounds hn, if_neg hy0, if_pos ⟨hacc, hy⟩]

theorem exec_mod_zero (hn : n < capacity) (hy : s.mem.read n = 0) :
    exec (.mod n) s = retire s (divisorZero s) := by
  rw [exec_mod, withOperand_inBounds hn, if_pos hy]

/-! ## The policies (spec/41_arithmetic.md R101, R103) -/

theorem retire_settleAcc_inWord {r : Int} (h : inWord s.params.wordBits r = true) :
    retire s (settleAcc s r) = .next ((s.setAcc r).setPc (s.pc + 1)) := by
  rw [settleAcc_inWord h, retire_success, State.setAcc_pc]

theorem retire_settleAcc_wrap {r : Int} (h : inWord s.params.wordBits r = false) (hp : s.params.overflow = .wrap) :
    retire s (settleAcc s r) = .next ((s.setAcc (wrap s.params.wordBits r)).setPc (s.pc + 1)) := by
  rw [settleAcc_wrap h hp, retire_success, State.setAcc_pc]

theorem retire_settleAcc_undefined {r : Int} (h : inWord s.params.wordBits r = false)
    (hp : s.params.overflow = .undefined) : retire s (settleAcc s r) = .fault (.undefinedOverflow s) := by
  rw [settleAcc_undefined h hp, retire_overflow]

theorem retire_divisorZero_other (hp : s.params.divZero = .other) :
    retire s (divisorZero s) = .next (s.haltSignal .other) := by
  simp only [divisorZero, hp, retire_other]

theorem retire_divisorZero_undefined (hp : s.params.divZero = .undefined) :
    retire s (divisorZero s) = .fault (.undefinedDivideByZero s) := by
  simp only [divisorZero, hp, retire_divideByZero]

theorem retire_settleModOverflow_wrap (hp : s.params.overflow = .wrap) :
    retire s (settleModOverflow s) = .next ((s.setAcc 0).setPc (s.pc + 1)) := by
  simp only [settleModOverflow, hp, retire_success, State.setAcc_pc]

theorem retire_settleModOverflow_undefined (hp : s.params.overflow = .undefined) :
    retire s (settleModOverflow s) = .fault (.undefinedOverflow s) := by
  simp only [settleModOverflow, hp, retire_overflow]

/-- The four ways of an instruction that reads its operand and settles the exact result `r` in `acc`: `r` a Word, `r`
out of range under each policy, and the operand out of bounds. -/
theorem exec_of_exactResult {i : Instr} {r : Int} (hi : i ∈ operandReaders n)
    (hexec : n < capacity → exec i s = retire s (settleAcc s r)) :
    (checkBound n = true → inWord s.params.wordBits r = true →
      exec i s = .next { s with acc := r, pc := s.pc + 1 }) ∧
    (checkBound n = true → inWord s.params.wordBits r = false → s.params.overflow = .wrap →
      exec i s = .next { s with acc := wrap s.params.wordBits r, pc := s.pc + 1 }) ∧
    (checkBound n = true → inWord s.params.wordBits r = false → s.params.overflow = .undefined →
      exec i s = .fault (.undefinedOverflow s)) ∧
    (checkBound n = false →
      exec i s = .next { s with run := .halted, term := some ⟨s.params.codes.outOfMemory, .outOfMemory⟩ }) :=
  ⟨fun hb hr => (hexec (lt_capacity_of_checkBound hb)).trans (retire_settleAcc_inWord hr),
    fun hb hr hp => (hexec (lt_capacity_of_checkBound hb)).trans (retire_settleAcc_wrap hr hp),
    fun hb hr hp => (hexec (lt_capacity_of_checkBound hb)).trans (retire_settleAcc_undefined hr hp),
    fun hb => exec_operandReader_outOfBounds (not_lt_capacity_of_checkBound hb) s i hi⟩

end Instructions

/-- Settles O15: the quotient is settled as an exact result where the divisor is not 0, and is a Word but for
`WMIN / -1`. -/
theorem divWritesTheQuotientTowardZero : Obligations.DivWritesTheQuotientTowardZero := by
  refine ⟨fun n s => ⟨fun hb hy hq => ?_, fun hb hy hq hp => ?_, fun hb hy hq hp => ?_, fun hb hy hp => ?_,
    fun hb hy hp => ?_, fun hb => ?_⟩, fun bits x y _ hx _ _ => quot_not_inWord_iff hx⟩
  · exact (exec_div_inBounds (lt_capacity_of_checkBound hb) hy).trans (retire_settleAcc_inWord hq)
  · exact (exec_div_inBounds (lt_capacity_of_checkBound hb) hy).trans (retire_settleAcc_wrap hq hp)
  · exact (exec_div_inBounds (lt_capacity_of_checkBound hb) hy).trans (retire_settleAcc_undefined hq hp)
  · exact (exec_div_zero (lt_capacity_of_checkBound hb) hy).trans (retire_divisorZero_other hp)
  · exact (exec_div_zero (lt_capacity_of_checkBound hb) hy).trans (retire_divisorZero_undefined hp)
  · exact exec_operandReader_outOfBounds (not_lt_capacity_of_checkBound hb) s _ (by simp [operandReaders])

/-- Settles O11: STORE is one write at its operand, which reads back there and nowhere else. -/
theorem storeWritesAccToMemory : Obligations.StoreWritesAccToMemory := by
  refine fun n s => ⟨fun hb => ⟨exec_store_inBounds (lt_capacity_of_checkBound hb) s, Memory.read_write_same _ _ _,
    fun a ha => Memory.read_write_ne _ ha _⟩, fun hb => ?_⟩
  exact exec_memWriter_outOfBounds (not_lt_capacity_of_checkBound hb) s _ (by simp [memWriters])

/-- Settles O10: LOAD reads its operand, which in a constructed machine is the drawn word. -/
theorem loadCopiesTheWordToAcc : Obligations.LoadCopiesTheWordToAcc := by
  refine ⟨fun n s => ⟨fun hb => exec_load_inBounds (lt_capacity_of_checkBound hb) s, fun hb => ?_⟩,
    fun p memInit answers n h => ?_⟩
  · exact exec_operandReader_outOfBounds (not_lt_capacity_of_checkBound hb) s _ (by simp [operandReaders])
  · rw [exec_load_inBounds h, State.construct_mem, Memory.read_empty memInit h]
    rfl

/-- Settles O12: ADD settles the exact sum, and one past either end of the Word range wraps to the other end. -/
theorem addWritesTheExactSum : Obligations.AddWritesTheExactSum := by
  refine ⟨fun n s => exec_of_exactResult (by simp [operandReaders]) fun hn => exec_add_inBounds hn s,
    fun bits hbits => ?_⟩
  have hpos : 1 ≤ bits := by omega
  exact ⟨not_inWord_wmax_add_one bits, not_inWord_wmin_sub_one bits, wrap_wmax_add_one hpos, wrap_wmin_sub_one hpos⟩

/-- Settles O13: SUB settles the exact difference, and `0 - WMIN` is one past `WMAX`. -/
theorem subWritesTheExactDifference : Obligations.SubWritesTheExactDifference := by
  refine ⟨fun n s => exec_of_exactResult (by simp [operandReaders]) fun hn => exec_sub_inBounds hn s,
    fun bits _ => ?_⟩
  rw [zero_sub, neg_wmin, not_inWord_wmax_add_one]

/-- Settles O14: MUL settles the exact product, and `WMIN * -1` is one past `WMAX`. -/
theorem mulWritesTheExactProduct : Obligations.MulWritesTheExactProduct := by
  refine ⟨fun n s => exec_of_exactResult (by simp [operandReaders]) fun hn => exec_mul_inBounds hn s,
    fun bits _ => ?_, by decide, by decide⟩
  rw [mul_neg_one, neg_wmin, not_inWord_wmax_add_one]

/-- Settles O16: MOD writes the remainder but for a zero divisor and `WMIN mod -1`, which the policies decide. -/
theorem modWritesTheRemainder : Obligations.ModWritesTheRemainder := by
  refine fun n s => ⟨fun hb hy hov => exec_mod_inBounds (lt_capacity_of_checkBound hb) hy hov,
    fun hb hacc hy hp => ?_, fun hb hacc hy hp => ?_, fun hb hy hp => ?_, fun hb hy hp => ?_, fun hb => ?_,
    by decide, by decide, rem_one⟩
  · exact (exec_mod_overflow (lt_capacity_of_checkBound hb) hacc hy).trans (retire_settleModOverflow_wrap hp)
  · exact (exec_mod_overflow (lt_capacity_of_checkBound hb) hacc hy).trans (retire_settleModOverflow_undefined hp)
  · exact (exec_mod_zero (lt_capacity_of_checkBound hb) hy).trans (retire_divisorZero_other hp)
  · exact (exec_mod_zero (lt_capacity_of_checkBound hb) hy).trans (retire_divisorZero_undefined hp)
  · exact exec_operandReader_outOfBounds (not_lt_capacity_of_checkBound hb) s _ (by simp [operandReaders])

/-! ## Faults: what an operation did when it faulted (spec/60_exceptions.md R157, R166) -/

section Faults

variable {s : State} {f : Fault} {i : Instr} {n : Nat}

theorem settleAcc_fault {r : Int} (h : retire s (settleAcc s r) = .fault f) :
    f = .undefinedOverflow s ∧ s.params.overflow = .undefined ∧ inWord s.params.wordBits r = false := by
  cases hr : inWord s.params.wordBits r with
  | true => simp [retire_settleAcc_inWord hr] at h
  | false =>
    cases hp : s.params.overflow with
    | wrap => simp [retire_settleAcc_wrap hr hp] at h
    | undefined =>
      rw [retire_settleAcc_undefined hr hp, Host.Outcome.fault.injEq] at h
      exact ⟨h.symm, rfl, rfl⟩

theorem divisorZero_fault (h : retire s (divisorZero s) = .fault f) :
    f = .undefinedDivideByZero s ∧ s.params.divZero = .undefined := by
  cases hp : s.params.divZero with
  | other => simp [retire_divisorZero_other hp] at h
  | undefined =>
    rw [retire_divisorZero_undefined hp, Host.Outcome.fault.injEq] at h
    exact ⟨h.symm, rfl⟩

theorem settleModOverflow_fault (h : retire s (settleModOverflow s) = .fault f) :
    f = .undefinedOverflow s ∧ s.params.overflow = .undefined := by
  cases hp : s.params.overflow with
  | wrap => simp [retire_settleModOverflow_wrap hp] at h
  | undefined =>
    rw [retire_settleModOverflow_undefined hp, Host.Outcome.fault.injEq] at h
    exact ⟨h.symm, rfl⟩

/-- A failed bounds check is no fault, so what the operand is used for is. -/
theorem withOperand_fault {use : Int → UnitResult} (h : retire s (withOperand n s use) = .fault f) :
    retire s (use (s.mem.read n)) = .fault f := by
  by_cases hn : n < capacity
  · rwa [withOperand_inBounds hn] at h
  · simp [withOperand_outOfBounds hn] at h

theorem exec_jump_ne_fault : ∀ i ∈ jumps n, exec i s ≠ .fault f := by
  have key (b : Bool) : retire s (jumpIf b n s) ≠ .fault f := by
    by_cases hn : n < capacity
    · cases b <;> simp [jumpIf_taken hn, jumpIf_notTaken hn]
    · simp [jumpIf_outOfBounds hn]
  simp [jumps, exec_jmp, exec_jz, key]

theorem storeOperand_ne_fault (v : Int) : retire s (storeOperand n v s) ≠ .fault f := by
  by_cases hn : n < capacity
  · simp [storeOperand_inBounds hn]
  · simp [storeOperand_outOfBounds hn]

/-- IN answers a next state, whatever the host's answer is. -/
theorem exists_execInput_next (n : Nat) (s : State) : ∃ t, execInput n s = .next t := by
  by_cases hn : n < capacity
  · cases hi : s.input with
    | nil => exact ⟨_, execInput_held hn hi⟩
    | cons a rest =>
      rw [execInput_answer hn hi, receive]
      cases answerWord s.params.wordBits a with
      | some v => exact ⟨_, retire_success _ _⟩
      | none => exact ⟨_, retire_other _ _⟩
  · exact ⟨_, execInput_outOfBounds hn⟩

theorem exec_memWriter_ne_fault : ∀ i ∈ memWriters n, exec i s ≠ .fault f := by
  have hin : execInput n s ≠ .fault f := by
    obtain ⟨t, ht⟩ := exists_execInput_next n s
    simp [ht]
  simp [memWriters, exec_input, exec_store, exec_and, exec_or, exec_xor, exec_not, hin, storeOperand_ne_fault]

/-- ADD, SUB and MUL with operand `n`, each with its exact result. -/
def exactResults (s : State) (n : Nat) : List (Instr × Int) :=
  [(.add n, s.acc + s.mem.read n), (.sub n, s.acc - s.mem.read n), (.mul n, s.acc * s.mem.read n)]

/-- The ways the meaning of an instruction that begins in `s` ends in a fault. -/
inductive FaultEffect (s : State) : Instr → Fault → Prop
  /-- ADD, SUB or MUL, with an exact result out of range. -/
  | exactResult (i : Instr) (n : Nat) (r : Int) :
      (i, r) ∈ exactResults s n → s.params.overflow = .undefined → inWord s.params.wordBits r = false →
      FaultEffect s i (.undefinedOverflow s)
  | quotient (n : Nat) : s.params.overflow = .undefined → s.mem.read n ≠ 0 →
      inWord s.params.wordBits (quot s.acc (s.mem.read n)) = false → FaultEffect s (.div n) (.undefinedOverflow s)
  /-- `WMIN mod -1`. -/
  | remainder (n : Nat) : s.params.overflow = .undefined → s.acc = wmin s.params.wordBits → s.mem.read n = -1 →
      FaultEffect s (.mod n) (.undefinedOverflow s)
  | zeroDivisor (i : Instr) (n : Nat) : i ∈ [Instr.div n, .mod n] → s.params.divZero = .undefined →
      s.mem.read n = 0 → FaultEffect s i (.undefinedDivideByZero s)

theorem faultEffect_exactResult {r : Int} (hm : (i, r) ∈ exactResults s n)
    (h : retire s (settleAcc s r) = .fault f) : FaultEffect s i f := by
  obtain ⟨rfl, hp, hr⟩ := settleAcc_fault h
  exact .exactResult i n r hm hp hr

theorem faultEffect_divisorZero (hm : i ∈ [Instr.div n, .mod n]) (hy : s.mem.read n = 0)
    (h : retire s (divisorZero s) = .fault f) : FaultEffect s i f := by
  obtain ⟨rfl, hp⟩ := divisorZero_fault h
  exact .zeroDivisor i n hm hp hy

/-- The inversion lemma: a meaning that faults did one of the things `FaultEffect` lists. -/
theorem exec_faultEffect (h : exec i s = .fault f) : FaultEffect s i f := by
  cases i with
  | add n =>
    rw [exec_add] at h
    have hr := withOperand_fault h
    exact faultEffect_exactResult (n := n) (by simp [exactResults]) hr
  | sub n =>
    rw [exec_sub] at h
    have hr := withOperand_fault h
    exact faultEffect_exactResult (n := n) (by simp [exactResults]) hr
  | mul n =>
    rw [exec_mul] at h
    have hr := withOperand_fault h
    exact faultEffect_exactResult (n := n) (by simp [exactResults]) hr
  | div n =>
    rw [exec_div] at h
    have hu := withOperand_fault h
    split at hu
    next hz => exact faultEffect_divisorZero (n := n) (by simp) hz hu
    next hz =>
      obtain ⟨rfl, hp, hq⟩ := settleAcc_fault hu
      exact .quotient n hp hz hq
  | mod n =>
    rw [exec_mod] at h
    have hu := withOperand_fault h
    split at hu
    next hz => exact faultEffect_divisorZero (n := n) (by simp) hz hu
    next =>
      split at hu
      next hov =>
        obtain ⟨hacc, hneg⟩ := hov
        obtain ⟨rfl, hp⟩ := settleModOverflow_fault hu
        exact .remainder n hp hacc hneg
      next => cases hu
  | output n => rw [exec_output] at h; cases withOperand_fault h
  | load n => rw [exec_load] at h; cases withOperand_fault h
  | setA n => rw [exec_setA] at h; cases withOperand_fault h
  | setB n => rw [exec_setB] at h; cases withOperand_fault h
  | nop n | halt n | flat n => cases h
  | jmp n | jz n => exact absurd h (exec_jump_ne_fault (n := n) _ (by simp [jumps]))
  | input n | store n | and n | or n | xor n | not n =>
    exact absurd h (exec_memWriter_ne_fault (n := n) _ (by simp [memWriters]))

/-- A step faults only in the meaning of the instruction it fetched. -/
theorem step_fault (h : step s = .fault f) : ∃ i, s.run = .running ∧ s.pc < capacity ∧
    decode (s.mem.read s.pc) = some i ∧ FaultEffect (s.setIr (s.mem.read s.pc)) i f := by
  obtain hr | ⟨hr, hb⟩ | ⟨hr, hb, hd⟩ | ⟨i, hr, hb, hd, hw⟩ | ⟨i, hr, hb, hd, hw⟩ := step_cases s
  · rw [step_halted hr] at h; cases h
  · rw [step_endOfProgram hr hb] at h; cases h
  · rw [step_invalid hr hb hd] at h; cases h
  · rw [step_held hr hb hd hw] at h; cases h
  · rw [step_exec hr hb hd hw] at h
    exact ⟨i, hr, hb, hd, exec_faultEffect h⟩

/-! ## No instruction is refused -/

theorem exec_ne_refused (i : Instr) (s : State) (r : Refusal) : exec i s ≠ .refused r := by
  cases i with
  | input n =>
    obtain ⟨t, ht⟩ := exists_execInput_next n s
    rw [exec_input, ht]
    nofun
  | _ =>
    simp only [exec_nop, exec_output, exec_load, exec_store, exec_add, exec_sub, exec_mul, exec_div, exec_mod, exec_jmp,
      exec_jz, exec_halt, exec_setA, exec_setB, exec_flat, exec_and, exec_or, exec_xor, exec_not]
    exact retire_ne_refused s _ r

theorem step_ne_refused (s : State) (r : Refusal) : step s ≠ .refused r := by
  obtain hr | ⟨hr, hb⟩ | ⟨hr, hb, hd⟩ | ⟨i, hr, hb, hd, hw⟩ | ⟨i, hr, hb, hd, hw⟩ := step_cases s
  · rw [step_halted hr]; nofun
  · rw [step_endOfProgram hr hb]; nofun
  · rw [step_invalid hr hb hd]; nofun
  · rw [step_held hr hb hd hw]; nofun
  · rw [step_exec hr hb hd hw]
    exact exec_ne_refused i _ r

end Faults

/-- Settles O46: the cases of a fault, from the state that holds the fetched word in `ir`. -/
theorem faultsComeOnlyFromTheUndefinedPolicies : Obligations.FaultsComeOnlyFromTheUndefinedPolicies := by
  refine ⟨fun s f h => ?_, step_ne_refused⟩
  obtain ⟨i, hrun, hpc, hd, hf⟩ := step_fault h
  refine ⟨hrun, checkBound_of_lt hpc, ?_⟩
  rw [hd]
  cases hf with
  | exactResult _ n r hm hp hr =>
    refine .inl ⟨rfl, hp, n, ?_⟩
    simp only [exactResults, List.mem_cons, List.not_mem_nil, or_false, Prod.mk.injEq] at hm
    obtain ⟨rfl, rfl⟩ | ⟨rfl, rfl⟩ | ⟨rfl, rfl⟩ := hm
    · exact .inl ⟨rfl, hr⟩
    · exact .inr (.inl ⟨rfl, hr⟩)
    · exact .inr (.inr (.inl ⟨rfl, hr⟩))
  | quotient n hp hy hq => exact .inl ⟨rfl, hp, n, .inr (.inr (.inr (.inl ⟨rfl, hy, hq⟩)))⟩
  | remainder n hp hacc hy => exact .inl ⟨rfl, hp, n, .inr (.inr (.inr (.inr ⟨rfl, hacc, hy⟩)))⟩
  | zeroDivisor _ n hm hp hy => exact .inr ⟨rfl, hp, n, i, hm, rfl, hy⟩

end Sys2Proof.Machine
end

section
/-! The extended unit: what its instructions answer, bit 0 of a Word and its complement as arithmetic
(spec/42_extended.md R120-R127, spec/00_scope.md R14). -/

namespace Sys2Proof.Machine

/-! ## Bit 0 and the complement as arithmetic (spec/00_scope.md R14) -/

section BitArithmetic

variable {bits : Nat} {x : Int}

/-- Bit 0 of the representation is the residue modulo 2, as 2^WORD_BITS is even. -/
theorem toNat_toBits_and_one (h : 1 ≤ bits) (x : Int) : ((toBits bits x &&& toBits bits 1).toNat : Int) = x % 2 := by
  have hdvd : (2 : Int) ∣ 2 ^ bits := dvd_pow_self 2 (by omega)
  have hone : (toBits bits 1).toNat = 1 := by
    simp [toBits, Nat.mod_eq_of_lt (Nat.one_lt_two_pow (by omega : bits ≠ 0))]
  have hnat : ((toBits bits x).toNat : Int) = x % 2 ^ bits := by
    rw [toBits, BitVec.toNat_ofInt, Int.toNat_of_nonneg (Int.emod_nonneg x (by positivity)), Nat.cast_pow,
      Nat.cast_ofNat]
  rw [BitVec.toNat_and, hone, Nat.and_one_is_mod, Int.natCast_mod, hnat]
  exact Int.emod_emod_of_dvd x hdvd

/-- With at least two bits, a Word that is 0 or 1 is not read back as a negative one. -/
theorem bitAnd_one (h : 2 ≤ bits) (x : Int) : bitAnd bits x 1 = x % 2 := by
  have hbit := toNat_toBits_and_one (by omega : 1 ≤ bits) x
  have hfour : 2 ^ 2 ≤ 2 ^ bits := Nat.pow_le_pow_right (by omega) h
  rw [bitAnd, BitVec.toInt_eq_toNat_of_lt (by omega), hbit]

/-- The complement is the negation less one, modulo 2^WORD_BITS. -/
theorem bitNot_eq_wrap (bits : Nat) (x : Int) : bitNot bits x = wrap bits (-x - 1) := by
  have hnot : toBits bits (-x - 1) = ~~~ toBits bits x := by
    rw [BitVec.not_eq_neg_add, sub_eq_add_neg, toBits, toBits, BitVec.ofInt_add, BitVec.ofInt_neg, BitVec.ofInt_neg,
      BitVec.sub_eq_add_neg]
    rfl
  rw [wrap_eq_toInt, hnot, bitNot]

/-- The Word range maps to itself under `-x - 1`, which exchanges `WMIN` and `WMAX`. -/
theorem inWord_neg_sub_one (hx : inWord bits x = true) : inWord bits (-x - 1) = true := by
  have hmax := neg_wmin bits
  rw [inWord_iff] at hx ⊢
  omega

theorem bitNot_of_inWord (h : 1 ≤ bits) (hx : inWord bits x = true) : bitNot bits x = -x - 1 := by
  rw [bitNot_eq_wrap, wrap_of_inWord h (inWord_neg_sub_one hx)]

end BitArithmetic

/-! ## The extended unit's instructions (spec/42_extended.md R121-R127) -/

section ExtendedInstructions

variable {n : Nat}

theorem exec_setA_inBounds (hn : n < capacity) (s : State) :
    exec (.setA n) s = .next ((s.setAuxA (s.mem.read n)).setPc (s.pc + 1)) := by
  rw [exec_setA, withOperand_inBounds hn, retire_success, State.setAuxA_pc]

theorem exec_setB_inBounds (hn : n < capacity) (s : State) :
    exec (.setB n) s = .next ((s.setAuxB (s.mem.read n)).setPc (s.pc + 1)) := by
  rw [exec_setB, withOperand_inBounds hn, retire_success, State.setAuxB_pc]

theorem exec_flat_next (n : Nat) (s : State) :
    exec (.flat n) s = .next (((s.setAuxA (bitAnd s.params.wordBits s.auxA 1)).setAuxB
      (bitAnd s.params.wordBits s.auxB 1)).setPc (s.pc + 1)) := by
  rw [exec_flat, retire_success, State.setAuxB_pc, State.setAuxA_pc]

/-- What AND, OR, XOR and NOT share: a result `v` written at the checked operand. -/
theorem retire_storeOperand_inBounds (hn : n < capacity) (v : Int) (s : State) :
    retire s (storeOperand n v s) = .next ((s.storeWord n v).setPc (s.pc + 1)) := by
  rw [storeOperand_inBounds hn, retire_success, State.storeWord_pc]

end ExtendedInstructions

/-- Settles O20: bit 0 of any integer is its residue modulo 2, and a residue is its own residue. -/
theorem flatKeepsBitZeroOfBothRegisters : Obligations.FlatKeepsBitZeroOfBothRegisters := by
  refine ⟨exec_flat_next, fun bits x hbits => ?_⟩
  have htwo : 2 ≤ bits := by omega
  rw [bitAnd_one htwo, bitAnd_one htwo]
  exact ⟨rfl, Int.emod_two_eq_zero_or_one x, Int.emod_emod_of_dvd x dvd_rfl⟩

/-- Settles O21: each is one write of its result at the operand, and memory reads back what was written. -/
theorem bitwiseResultGoesToMemory : Obligations.BitwiseResultGoesToMemory := by
  refine fun n s => ⟨fun hb => ?_, fun hb => ?_, fun hb => ?_, fun hb i hi => ?_,
    fun v => ⟨Memory.read_write_same _ _ _, fun a ha => Memory.read_write_ne _ ha _⟩⟩
  · exact (exec_and n s).trans (retire_storeOperand_inBounds (lt_capacity_of_checkBound hb) _ s)
  · exact (exec_or n s).trans (retire_storeOperand_inBounds (lt_capacity_of_checkBound hb) _ s)
  · exact (exec_xor n s).trans (retire_storeOperand_inBounds (lt_capacity_of_checkBound hb) _ s)
  · have hw : i ∈ memWriters n := by revert i; simp [memWriters]
    exact exec_memWriter_outOfBounds (not_lt_capacity_of_checkBound hb) s i hw

/-- Settles O22: the word that NOT writes is computed from `auxA`, and is a Word without wrapping. -/
theorem notWritesTheComplementOfAuxA : Obligations.NotWritesTheComplementOfAuxA := by
  refine ⟨fun n s => ⟨fun hb => ⟨fun b => ?_, Memory.read_write_same _ _ _, fun a ha => Memory.read_write_ne _ ha _⟩,
    fun hb => ?_⟩, fun bits x hbits => bitNot_of_inWord (by omega)⟩
  · exact (exec_not n (s.setAuxB b)).trans (retire_storeOperand_inBounds (lt_capacity_of_checkBound hb) _ _)
  · exact exec_memWriter_outOfBounds (not_lt_capacity_of_checkBound hb) s _ (by simp [memWriters])

/-- Settles O19: SETA and SETB read their operand and write one auxiliary register. -/
theorem setRegisterCopiesTheWord : Obligations.SetRegisterCopiesTheWord := by
  refine fun n s => ⟨fun hb => exec_setA_inBounds (lt_capacity_of_checkBound hb) s,
    fun hb => exec_setB_inBounds (lt_capacity_of_checkBound hb) s, fun hb => ?_, fun hb => ?_⟩
  all_goals exact exec_operandReader_outOfBounds (not_lt_capacity_of_checkBound hb) s _ (by simp [operandReaders])

end Sys2Proof.Machine
end

section
/-! The I/O unit: what IN and OUT answer, the step that waits for input, and the transactions of a step and of a run
(spec/43_io.md). -/

namespace Sys2Proof.Machine

/-! ## IN and OUT in bounds (spec/43_io.md R141-R147) -/

section Answers

variable {bits : Nat}

theorem answerWord_of_inWord {v : Int} (hv : inWord bits v = true) : answerWord bits (.value v) = some v := by
  rw [answerWord, if_pos hv]

/-- The three kinds of `error` (spec/43_io.md R141). -/
theorem answerWord_eq_none_iff {a : InputAnswer} : answerWord bits a = none ↔
    a = .nonNumeric ∨ a = .endOfInput ∨ ∃ v, a = .value v ∧ inWord bits v = false := by
  cases a with
  | value v => simp [answerWord]
  | nonNumeric | endOfInput => simp [answerWord]

end Answers

section Instructions

variable {s : State} {n : Nat} {a : InputAnswer} {rest : List InputAnswer}

theorem exec_input_value {v : Int} (hn : n < capacity) (hin : s.input = a :: rest)
    (ha : answerWord s.params.wordBits a = some v) :
    exec (.input n) s = .next ((s.takeAnswer.storeWord n v).setPc (s.pc + 1)) := by
  simp only [exec_input, execInput_answer hn hin, receive, ha, retire_success, State.storeWord_pc,
    State.takeAnswer_pc]

theorem exec_input_error (hn : n < capacity) (hin : s.input = a :: rest)
    (ha : answerWord s.params.wordBits a = none) :
    exec (.input n) s = .next (s.takeAnswer.haltSignal .other) := by
  simp only [exec_input, execInput_answer hn hin, receive, ha, retire_other]

theorem exec_output_inBounds (hn : n < capacity) (s : State) :
    exec (.output n) s = .next ((s.outWrite (s.mem.read n)).setPc (s.pc + 1)) := by
  rw [exec_output, withOperand_inBounds hn, retire_success, State.outWrite_pc]

theorem takeAnswer_of_cons (hin : s.input = a :: rest) : s.takeAnswer = { s with input := rest } := by
  rw [State.takeAnswer, hin, List.tail_cons]

end Instructions

/-- Settles O25: an answer that gives a Word is stored at the operand, and every other answer is an error. -/
theorem inStoresTheAnswerOrHalts : Obligations.InStoresTheAnswerOrHalts := by
  refine fun n s rest => ⟨fun v hb hin hv => ⟨?_, Memory.read_write_same _ _ _,
    fun a ha => Memory.read_write_ne _ ha _⟩, fun a hb hin herr => ?_, fun hb hin => ?_, fun hb => ?_⟩
  · rw [exec_input_value (lt_capacity_of_checkBound hb) hin (answerWord_of_inWord hv), takeAnswer_of_cons hin]
    rfl
  · rw [exec_input_error (lt_capacity_of_checkBound hb) hin (answerWord_eq_none_iff.2 herr), takeAnswer_of_cons hin]
    rfl
  · exact (exec_input n s).trans (execInput_held (lt_capacity_of_checkBound hb) hin)
  · exact exec_memWriter_outOfBounds (not_lt_capacity_of_checkBound hb) s _ (by simp [memWriters])

/-- Settles O26: OUT reads its operand, which in a constructed machine is the drawn word. -/
theorem outSendsTheWord : Obligations.OutSendsTheWord := by
  refine ⟨fun n s => ⟨fun hb => exec_output_inBounds (lt_capacity_of_checkBound hb) s, fun hb => ?_⟩,
    fun p memInit answers n h => ?_⟩
  · exact exec_operandReader_outOfBounds (not_lt_capacity_of_checkBound hb) s _ (by simp [operandReaders])
  · rw [exec_output_inBounds h, State.construct_mem, Memory.read_empty memInit h]
    rfl

/-! ## The step that waits for input (spec/43_io.md R147) -/

theorem stepStatus_of_isHeld {s : State} (h : isHeld s = true) : stepStatus s = .held := by
  obtain ⟨hrun, -, -⟩ := isHeld_iff.1 h
  simp [stepStatus, statusOf, hrun, h]

/-- Settles O35: an IN with a checked operand and no answer waits. The operand of a decoded word is in bounds. -/
theorem unansweredInputHoldsTheStep : Obligations.UnansweredInputHoldsTheStep := by
  intro s n hrun hb hd hin
  have hn : n < capacity := decode_operand_lt_capacity hd
  have hw : awaitsInput s (.input n) = true := by simp [awaitsInput, hn, hin]
  have hh : isHeld s = true := isHeld_iff.2 ⟨hrun, lt_capacity_of_checkBound hb, _, hd, hw⟩
  exact ⟨step_of_isHeld hh, stepStatus_of_isHeld hh⟩

/-! ## Transactions (spec/43_io.md R146) -/

section Transactions

variable {s t : State} {i : Instr}

/-- From `s` to `t` neither port changed, or one Word was sent, or the oldest answer was taken. -/
def AtMostOneTransaction (s t : State) : Prop :=
  (t.output = s.output ∧ t.input = s.input) ∨
  (∃ v, t.output = s.output ++ [v] ∧ t.input = s.input) ∨
  (∃ a, s.input = a :: t.input ∧ t.output = s.output)

/-- OUT alone sends, and IN alone takes an answer. -/
theorem Effect.atMostOneTransaction (he : Effect s i t) : AtMostOneTransaction s t := by
  cases he with
  | send n _ => exact .inr (.inl ⟨_, rfl, rfl⟩)
  | receive n a v _ hin _ => exact .inr (.inr ⟨a, hin, rfl⟩)
  | inputError n a hin _ => exact .inr (.inr ⟨a, hin, rfl⟩)
  | _ => exact .inl ⟨rfl, rfl⟩

/-- The fetch and the halting transition touch no port. -/
theorem step_atMostOneTransaction (h : step s = .next t) : AtMostOneTransaction s t := by
  obtain rfl | ⟨-, -, rfl⟩ | ⟨-, -, -, rfl⟩ | ⟨i, -, -, -, -, hexec⟩ := step_next h
  · exact .inl ⟨rfl, rfl⟩
  · exact .inl ⟨rfl, rfl⟩
  · exact .inl ⟨rfl, rfl⟩
  · exact (exec_effect hexec).atMostOneTransaction

theorem AtMostOneTransaction.output_prefix (h : AtMostOneTransaction s t) : s.output <+: t.output := by
  obtain ⟨hout, -⟩ | ⟨v, hout, -⟩ | ⟨a, -, hout⟩ := h
  · exact hout ▸ List.prefix_rfl
  · exact hout ▸ List.prefix_append _ _
  · exact hout ▸ List.prefix_rfl

theorem AtMostOneTransaction.input_suffix (h : AtMostOneTransaction s t) : t.input <:+ s.input := by
  obtain ⟨-, hin⟩ | ⟨v, -, hin⟩ | ⟨a, hin, -⟩ := h
  · exact hin ▸ List.suffix_rfl
  · exact hin ▸ List.suffix_rfl
  · exact hin ▸ List.suffix_cons _ _

/-- Along a run the output grows at its end, and the input is consumed from its front. -/
theorem Reaches.ports (h : Reaches s t) : s.output <+: t.output ∧ t.input <:+ s.input := by
  refine reaches_induction (P := fun u => s.output <+: u.output ∧ u.input <:+ s.input) ?_ h
    ⟨List.prefix_rfl, List.suffix_rfl⟩
  rintro a b ⟨hout, hin⟩ hstep
  have htr := step_atMostOneTransaction hstep
  exact ⟨hout.trans htr.output_prefix, htr.input_suffix.trans hin⟩

end Transactions

/-- Settles O52: the transaction of one step, and the order of transactions over a run. -/
theorem stepMakesAtMostOneTransaction : Obligations.StepMakesAtMostOneTransaction := by
  refine ⟨fun s t => step_atMostOneTransaction, fun s t h => ?_⟩
  obtain ⟨⟨sent, hsent⟩, ⟨taken, htaken⟩⟩ := h.ports
  exact ⟨⟨sent, hsent.symm⟩, ⟨taken, htaken.symm⟩⟩

end Sys2Proof.Machine
end

section
/-! How a step ends: the halting transition and its causes, the absence of faults under the policies `wrap` and `other`,
and answers queued behind the ones a step reads (spec/60_exceptions.md R151, R154, R157, R159, R166). -/

namespace Sys2Proof.Machine

/-! ## The halting transition (spec/60_exceptions.md R151, R154, R157) -/

section Halting

variable {s t : State} {i : Instr}

/-- The ways a step of a running machine ends in a halted state: one for each signal of R154's table but OUT_OF_MEMORY,
which no decoded operand raises, and for OTHER one for each of its two reasons. -/
inductive HaltingStep (s : State) : State → Prop
  | endOfProgram : ¬ s.pc < capacity → HaltingStep s (s.haltSignal .endOfProgram)
  | invalidOpcode : s.pc < capacity → decode (s.mem.read s.pc) = none →
      HaltingStep s ((s.setIr (s.mem.read s.pc)).haltSignal .invalidOpcode)
  | explicitHalt (n : Nat) : s.pc < capacity → decode (s.mem.read s.pc) = some (.halt n) →
      HaltingStep s ((s.setIr (s.mem.read s.pc)).halt .explicitHalt (exitCodeOf n))
  | zeroDivisor (i : Instr) (n : Nat) : s.pc < capacity → decode (s.mem.read s.pc) = some i →
      i ∈ [Instr.div n, .mod n] → s.mem.read n = 0 → s.params.divZero = .other →
      HaltingStep s ((s.setIr (s.mem.read s.pc)).haltSignal .other)
  | inputError (n : Nat) (a : InputAnswer) : s.pc < capacity → decode (s.mem.read s.pc) = some (.input n) →
      s.input = a :: s.takeAnswer.input → answerWord s.params.wordBits a = none →
      HaltingStep s ((s.setIr (s.mem.read s.pc)).takeAnswer.haltSignal .other)

/-- A decoded operand is in bounds, so HALT, a zero divisor and an input error are the only effects that halt. -/
theorem Effect.haltingStep (he : Effect (s.setIr (s.mem.read s.pc)) i t) (hrun : s.run = .running)
    (hpc : s.pc < capacity) (hd : decode (s.mem.read s.pc) = some i) (ht : t.run = .halted) : HaltingStep s t := by
  cases he with
  | explicitHalt n => exact .explicitHalt n hpc hd
  | zeroDivisor _ n hi hy hp => exact .zeroDivisor i n hpc hd hi hy hp
  | inputError n a hin ha => exact .inputError n a hpc hd hin ha
  | outOfBounds _ hn => exact absurd (decode_operand_lt_capacity hd) hn
  | _ => cases hrun.symm.trans ht

/-- The inversion lemma of a halting step. -/
theorem step_haltingStep (hrun : s.run = .running) (h : step s = .next t) (ht : t.run = .halted) :
    HaltingStep s t := by
  obtain rfl | ⟨-, hb, rfl⟩ | ⟨-, hb, hd, rfl⟩ | ⟨i, -, hb, hd, -, hexec⟩ := step_next h
  · cases hrun.symm.trans ht
  · exact .endOfProgram hb
  · exact .invalidOpcode hb hd
  · exact (exec_effect hexec).haltingStep hrun hb hd ht

end Halting

/-- Settles O42: each way to halt is the halting transition on the state as it was, with the word fetched, or the word
fetched and the answer taken. -/
theorem everyHaltIsPrecise : Obligations.EveryHaltIsPrecise := by
  intro s t hrun hstep ht
  cases step_haltingStep hrun hstep ht with
  | endOfProgram => exact ⟨rfl, .inl rfl, .inl rfl⟩
  | invalidOpcode | explicitHalt | zeroDivisor => exact ⟨rfl, .inr rfl, .inl rfl⟩
  | inputError n a hb hd hin ha => exact ⟨rfl, .inr rfl, .inr ⟨n, a, checkBound_of_lt hb, hd, hin, ha⟩⟩

/-- Settles O43: each way to halt has its row of the table. -/
theorem everySignalHasItsCause : Obligations.EverySignalHasItsCause := by
  intro s t hrun hstep ht
  cases step_haltingStep hrun hstep ht with
  | explicitHalt n hb hd => exact .inl ⟨n, checkBound_of_lt hb, hd, rfl⟩
  | endOfProgram hb => exact .inr (.inl ⟨by simpa using hb, rfl⟩)
  | invalidOpcode hb hd => exact .inr (.inr (.inl ⟨checkBound_of_lt hb, hd, rfl⟩))
  | zeroDivisor i n hb hd hi hy hp =>
    exact .inr (.inr (.inr ⟨checkBound_of_lt hb, rfl, .inl ⟨n, i, hi, hd, hy, hp⟩⟩))
  | inputError n a hb hd hin ha =>
    exact .inr (.inr (.inr ⟨checkBound_of_lt hb, rfl, .inr ⟨n, a, _, hd, hin, ha⟩⟩))

/-! ## No fault under `wrap` and `other` (spec/60_exceptions.md R166) -/

section NoFault

variable {s : State} {f : Fault} {i : Instr}

/-- Every fault needs one of the two undefined policies. -/
theorem FaultEffect.policy_undefined (hf : FaultEffect s i f) :
    s.params.overflow = .undefined ∨ s.params.divZero = .undefined := by
  cases hf with
  | exactResult _ _ _ _ hp _ | quotient _ hp _ _ | remainder _ hp _ _ => exact .inl hp
  | zeroDivisor _ _ _ hp _ => exact .inr hp

theorem step_ne_fault (hov : s.params.overflow = .wrap) (hdz : s.params.divZero = .other) (f : Fault) :
    step s ≠ .fault f := by
  intro h
  obtain ⟨i, -, -, -, hf⟩ := step_fault h
  obtain hp | hp := hf.policy_undefined
  · cases hov.symm.trans hp
  · cases hdz.symm.trans hp

/-- A step that answers a next state does not report FAULT. -/
theorem stepStatus_ne_fault_of_next {t : State} (h : step s = .next t) : stepStatus s ≠ .fault := by
  cases hrun : s.run with
  | halted => rw [stepStatus_of_halted hrun]; nofun
  | running =>
    cases hh : isHeld s with
    | true => rw [stepStatus_of_isHeld hh]; nofun
    | false => rw [stepStatus_of_next hrun hh h]; split <;> nofun

end NoFault

/-- Settles O45: the outcome is no fault under these policies, and no step is refused. -/
theorem noStepFaultsUnderWrapAndOther : Obligations.NoStepFaultsUnderWrapAndOther := by
  intro s hov hdz
  cases h : step s with
  | next t => exact ⟨⟨t, rfl⟩, stepStatus_ne_fault_of_next h⟩
  | fault f => exact absurd h (step_ne_fault hov hdz f)
  | refused r => exact absurd h (step_ne_refused s r)

/-! ## An answer queued behind the others (spec/60_exceptions.md R159, spec/43_io.md R141, R146)

No unit looks at the answers but IN, which looks at the oldest one. So each unit's result on the state with one more
answer is its result on the state without it, with the answer added. -/

/-- The result whose state is the one `f` makes of the result's state. -/
def UnitResult.mapState (f : State → State) : UnitResult → UnitResult
  | .success t => .success (f t)
  | .jumped t  => .jumped (f t)
  | .held      => .held
  | .raised k  => .raised k

section LaterAnswers

variable {s : State} {n : Nat} (a : InputAnswer)

theorem retire_answerInput {r r' : UnitResult} (h : r' = r.mapState (·.answerInput a)) :
    retire (s.answerInput a) r' = mapOutcome (·.answerInput a) (retire s r) := by
  subst h
  cases r with
  | success | jumped | held => rfl
  | raised k =>
    cases k with
    | outOfBounds | invalidOpcode | explicitHalt | other => rfl
    | undefined r => cases r <;> rfl

theorem settleAcc_answerInput (r : Int) :
    settleAcc (s.answerInput a) r = (settleAcc s r).mapState (·.answerInput a) := by
  unfold settleAcc
  rw [State.answerInput_params]
  split
  · rfl
  · split <;> rfl

theorem divisorZero_answerInput :
    divisorZero (s.answerInput a) = (divisorZero s).mapState (·.answerInput a) := by
  unfold divisorZero
  rw [State.answerInput_params]
  split <;> rfl

theorem settleModOverflow_answerInput :
    settleModOverflow (s.answerInput a) = (settleModOverflow s).mapState (·.answerInput a) := by
  unfold settleModOverflow
  rw [State.answerInput_params]
  split <;> rfl

theorem storeOperand_answerInput (v : Int) :
    storeOperand n v (s.answerInput a) = (storeOperand n v s).mapState (·.answerInput a) := by
  unfold storeOperand
  split <;> rfl

theorem jumpIf_answerInput (taken : Bool) :
    jumpIf taken n (s.answerInput a) = (jumpIf taken n s).mapState (·.answerInput a) := by
  unfold jumpIf
  split
  · cases taken <;> rfl
  · rfl

theorem withOperand_answerInput {use use' : Int → UnitResult}
    (huse : ∀ y, use' y = (use y).mapState (·.answerInput a)) :
    withOperand n (s.answerInput a) use' = (withOperand n s use).mapState (·.answerInput a) := by
  unfold withOperand
  split
  · exact huse _
  · rfl

/-- An answer queued behind another is not the one taken. -/
theorem takeAnswer_answerInput (hin : s.input ≠ []) :
    (s.answerInput a).takeAnswer = s.takeAnswer.answerInput a := by
  simp [State.takeAnswer, State.answerInput, List.tail_append_of_ne_nil hin]

theorem receive_answerInput (b : InputAnswer) (hin : s.input ≠ []) :
    receive n b (s.answerInput a) = mapOutcome (·.answerInput a) (receive n b s) := by
  unfold receive
  rw [State.answerInput_params, takeAnswer_answerInput a hin]
  split <;> rfl

/-- An IN that does not wait takes the oldest answer. -/
theorem execInput_answerInput (hw : awaitsInput s (.input n) = false) :
    execInput n (s.answerInput a) = mapOutcome (·.answerInput a) (execInput n s) := by
  by_cases hn : n < capacity
  · cases hin : s.input with
    | nil => simp [awaitsInput, hn, hin] at hw
    | cons b rest =>
      have hin' : (s.answerInput a).input = b :: (rest ++ [a]) := by
        rw [State.answerInput_input, hin, List.cons_append]
      rw [execInput_answer hn hin, execInput_answer hn hin', receive_answerInput a b (by simp [hin])]
  · rw [execInput_outOfBounds hn, execInput_outOfBounds hn]
    rfl

/-- An instruction that does not wait carries a later answer along. -/
theorem exec_answerInput {i : Instr} (hw : awaitsInput s i = false) :
    exec i (s.answerInput a) = mapOutcome (·.answerInput a) (exec i s) := by
  cases i with
  | input n => exact execInput_answerInput a hw
  | nop | flat | halt => rfl
  | output n | load n | setA n | setB n =>
    simp only [exec_output, exec_load, exec_setA, exec_setB]
    exact retire_answerInput a (withOperand_answerInput a fun _ => rfl)
  | store n | and n | or n | xor n | not n =>
    simp only [exec_store, exec_and, exec_or, exec_xor, exec_not]
    exact retire_answerInput a (storeOperand_answerInput a _)
  | jmp n | jz n =>
    simp only [exec_jmp, exec_jz]
    exact retire_answerInput a (jumpIf_answerInput a _)
  | add n | sub n | mul n =>
    simp only [exec_add, exec_sub, exec_mul]
    exact retire_answerInput a (withOperand_answerInput a fun _ => settleAcc_answerInput a _)
  | div n =>
    simp only [exec_div]
    refine retire_answerInput a (withOperand_answerInput a fun y => ?_)
    split
    · exact divisorZero_answerInput a
    · exact settleAcc_answerInput a _
  | mod n =>
    simp only [exec_mod]
    refine retire_answerInput a (withOperand_answerInput a fun y => ?_)
    rw [State.answerInput_acc, State.answerInput_params]
    split_ifs
    · exact divisorZero_answerInput a
    · exact settleModOverflow_answerInput a
    · rfl

/-- With an answer queued no instruction waits. -/
theorem awaitsInput_answerInput (i : Instr) : awaitsInput (s.answerInput a) i = false := by
  cases i with
  | input n => simp [awaitsInput]
  | _ => rfl

/-- A step that is not held carries a later answer along. -/
theorem step_answerInput (hh : isHeld s = false) :
    step (s.answerInput a) = mapOutcome (·.answerInput a) (step s) := by
  obtain hr | ⟨hr, hb⟩ | ⟨hr, hb, hd⟩ | ⟨i, hr, hb, hd, hw⟩ | ⟨i, hr, hb, hd, hw⟩ := step_cases s
  · rw [step_halted hr, step_halted (s := s.answerInput a) hr]
    rfl
  · rw [step_endOfProgram hr hb, step_endOfProgram (s := s.answerInput a) hr hb]
    rfl
  · rw [step_invalid hr hb hd, step_invalid (s := s.answerInput a) hr hb hd]
    rfl
  · simp [isHeld_iff.2 ⟨hr, hb, i, hd, hw⟩] at hh
  · rw [step_exec hr hb hd hw, step_exec (s := s.answerInput a) hr hb hd (awaitsInput_answerInput a i)]
    exact exec_answerInput (s := s.setIr (s.mem.read s.pc)) a ((awaitsInput_setIr s _ i).trans hw)

end LaterAnswers

/-- Settles O53: a step that is not held commutes with the answer, whatever its outcome. -/
theorem laterAnswersDoNotDisturbAStep : Obligations.LaterAnswersDoNotDisturbAStep := by
  refine fun s a hh => ⟨fun t ht => ?_, fun f hf => ?_⟩
  · rw [step_answerInput a hh, ht]
    rfl
  · rw [step_answerInput a hh, hf]
    rfl

end Sys2Proof.Machine
end

section
/-! The Loader: an equation for each kind of token, how far a source is read, and the words it leaves in memory
(spec/70_reset_and_hazards.md R172-R178); and the jump to its own address (R183, R184). -/

namespace Sys2Proof.Machine

/-! ## The Loader, token by token (spec/70_reset_and_hazards.md R174) -/

section Tokens

variable {bits seg cur pc : Nat} {m : Memory} {t : Token} {v : Int}

/-- A token that makes the load fail: not a base-10 integer, or an integer other than the sentinel that is no Word. -/
def BadToken (bits : Nat) (t : Token) : Prop :=
  t = .malformed ∨ ∃ v, t = .int v ∧ v ≠ sentinel ∧ inWord bits v = false

/-- An integer that the Loader writes to memory. -/
def LoadableWord (bits : Nat) (v : Int) : Prop := v ≠ sentinel ∧ inWord bits v = true

theorem token_cases (bits : Nat) (t : Token) :
    BadToken bits t ∨ t = .int sentinel ∨ ∃ v, t = .int v ∧ LoadableWord bits v := by
  cases t with
  | malformed => exact .inl (.inl rfl)
  | int v =>
    by_cases hs : v = sentinel
    · exact .inr (.inl (congrArg _ hs))
    · cases hw : inWord bits v
      · exact .inl (.inr ⟨v, rfl, hs, hw⟩)
      · exact .inr (.inr ⟨v, rfl, hs, hw⟩)

@[simp] theorem loadTokens_nil : loadTokens bits [] seg cur m pc = some (m, pc) := rfl

theorem loadTokens_bad (h : BadToken bits t) (ts : List Token) : loadTokens bits (t :: ts) seg cur m pc = none := by
  obtain rfl | ⟨v, rfl, hs, hw⟩ := h
  · rfl
  · simp [loadTokens, hs, hw]

/-- The first two sentinels end a segment, and the second sets `pc` to the cursor. -/
theorem loadTokens_sentinel (h : seg < 2) (ts : List Token) :
    loadTokens bits (.int sentinel :: ts) seg cur m pc =
      loadTokens bits ts (seg + 1) cur m (if seg = 1 then cur else pc) := by
  by_cases h1 : seg = 1
  · simp [loadTokens, h1]
  · simp [loadTokens, h1, Nat.not_lt.2 (Nat.succ_le_of_lt h)]

theorem loadTokens_thirdSentinel (h : 2 ≤ seg) (ts : List Token) :
    loadTokens bits (.int sentinel :: ts) seg cur m pc = some (m, pc) := by
  have hne : seg ≠ 1 := by omega
  simp [loadTokens, hne, Nat.lt_succ_of_le h]

theorem loadTokens_word (hv : LoadableWord bits v) (hc : cur < capacity) (ts : List Token) :
    loadTokens bits (.int v :: ts) seg cur m pc = loadTokens bits ts seg (cur + 1) (m.write cur v) pc := by
  obtain ⟨hs, hw⟩ := hv
  simp [loadTokens, hs, hw, Nat.not_le.2 hc]

theorem loadTokens_full (hv : LoadableWord bits v) (hc : capacity ≤ cur) (ts : List Token) :
    loadTokens bits (.int v :: ts) seg cur m pc = none := by
  obtain ⟨hs, hw⟩ := hv
  simp [loadTokens, hs, hw, hc]

theorem count_sentinel_cons_word (hv : LoadableWord bits v) (ts : List Token) :
    (Token.int v :: ts).count (.int sentinel) = ts.count (.int sentinel) :=
  List.count_cons_of_ne fun h => hv.1 (Token.int.inj h)

end Tokens

/-! ## A source with at most two sentinels is read to its end -/

/-- Tokens with at most two sentinels make every load fail that begins with them, or the Loader reads past them
whatever follows. Then it has counted their sentinels, and `pc` is still the same unless that made two. -/
theorem loadTokens_append (bits : Nat) (ts : List Token) (seg cur : Nat) (m : Memory) (pc : Nat)
    (h : seg + ts.count (.int sentinel) ≤ 2) :
    (∀ rest, loadTokens bits (ts ++ rest) seg cur m pc = none) ∨
    ∃ cur' m' pc', (seg + ts.count (.int sentinel) < 2 → pc' = pc) ∧
      ∀ rest, loadTokens bits (ts ++ rest) seg cur m pc =
        loadTokens bits rest (seg + ts.count (.int sentinel)) cur' m' pc' := by
  induction ts generalizing seg cur m pc with
  | nil => exact .inr ⟨cur, m, pc, fun _ => rfl, fun _ => rfl⟩
  | cons t ts ih =>
    obtain hbad | rfl | ⟨v, rfl, hv⟩ := token_cases bits t
    · exact .inl fun rest => loadTokens_bad hbad _
    · rw [List.count_cons_self, ← Nat.add_assoc, Nat.add_right_comm] at h ⊢
      have hseg : seg < 2 := by omega
      simp only [List.cons_append, loadTokens_sentinel hseg]
      obtain hnone | ⟨cur', m', pc', hpc, hrest⟩ := ih (seg + 1) cur m (if seg = 1 then cur else pc) h
      · exact .inl hnone
      · refine .inr ⟨cur', m', pc', fun hlt => ?_, hrest⟩
        rw [hpc hlt, if_neg (by omega)]
    · rw [count_sentinel_cons_word hv] at h ⊢
      by_cases hc : cur < capacity
      · simp only [List.cons_append, loadTokens_word hv hc]
        exact ih seg (cur + 1) _ pc h
      · exact .inl fun rest => loadTokens_full hv (Nat.not_lt.1 hc) _

theorem State.load_eq_none_iff {s : State} {source : List Token} :
    s.load source = none ↔ loadTokens s.params.wordBits source 0 0 s.mem s.pc = none := Option.map_eq_none_iff

/-- Settles O59: the Loader reads past the tokens before the bad one, unless they fail by themselves. -/
theorem badTokenFailsTheLoad : Obligations.BadTokenFailsTheLoad := by
  intro s source rest bad hcount hbad
  rw [State.load_eq_none_iff, List.append_assoc]
  obtain hnone | ⟨cur, m, pc, -, hrest⟩ :=
    loadTokens_append s.params.wordBits source 0 0 s.mem s.pc (by rwa [Nat.zero_add])
  · exact hnone _
  · rw [hrest]
    exact loadTokens_bad hbad _

/-- Settles O57: after two sentinels the third ends the load with what the end of the source would give. -/
theorem thirdSentinelEndsTheLoad : Obligations.ThirdSentinelEndsTheLoad := by
  intro s source rest hcount
  refine congrArg (Option.map _) ?_
  rw [List.append_assoc]
  obtain hnone | ⟨cur, m, pc, -, hrest⟩ :=
    loadTokens_append s.params.wordBits source 0 0 s.mem s.pc (by rw [hcount])
  · have hend := hnone []
    rw [List.append_nil] at hend
    rw [hnone, hend]
  · have hend := hrest []
    rw [List.append_nil, loadTokens_nil] at hend
    rw [hrest, hend, hcount]
    exact loadTokens_thirdSentinel le_rfl _

/-- A source that loads with fewer than two sentinels leaves `pc` as it was (spec/92_eei_decisions.md D22). -/
theorem State.load_pc {s t : State} {source : List Token} (hcount : source.count (.int sentinel) < 2)
    (h : s.load source = some t) : t.pc = s.pc := by
  obtain ⟨⟨m', pc'⟩, hload, rfl⟩ := Option.map_eq_some_iff.1 h
  obtain hnone | ⟨cur, m, pc, hpc, hrest⟩ :=
    loadTokens_append s.params.wordBits source 0 0 s.mem s.pc (by omega)
  · rw [← List.append_nil source, hnone] at hload
    cases hload
  · rw [← List.append_nil source, hrest, loadTokens_nil, Option.some.injEq, Prod.mk.injEq] at hload
    obtain ⟨-, rfl⟩ := hload
    exact hpc (by omega)

/-- Settles O58: `pc` keeps its value, and a constructed machine has `pc` 0. -/
theorem fewerThanTwoSentinelsLeavePc : Obligations.FewerThanTwoSentinelsLeavePc :=
  ⟨fun _ _ _ => State.load_pc, fun _ _ _ _ _ => State.load_pc⟩

/-! ## Loading keeps the invariant (spec/70_reset_and_hazards.md R172) -/

/-- Each token writes a Word inside memory or sets `pc` to the cursor, which is at most the capacity. -/
theorem State.Inv.of_loadTokens {s : State} (hs : s.Inv) {ts : List Token} {seg cur : Nat} {r : Memory × Nat}
    (hcur : cur ≤ capacity) (h : loadTokens s.params.wordBits ts seg cur s.mem s.pc = some r) :
    State.Inv { s with mem := r.1, pc := r.2 } := by
  induction ts generalizing s seg cur with
  | nil => cases h; exact hs
  | cons t ts ih =>
    obtain hbad | rfl | ⟨v, rfl, hv⟩ := token_cases s.params.wordBits t
    · rw [loadTokens_bad hbad] at h
      cases h
    · by_cases hseg : seg < 2
      · rw [loadTokens_sentinel hseg] at h
        split at h
        · exact ih (s := s.setPc cur) (hs.setPc hcur) hcur h
        · exact ih hs hcur h
      · rw [loadTokens_thirdSentinel (Nat.not_lt.1 hseg)] at h
        cases h
        exact hs
    · by_cases hc : cur < capacity
      · rw [loadTokens_word hv hc] at h
        exact ih (s := s.storeWord cur v) (hs.storeWord hc hv.2) hc h
      · rw [loadTokens_full hv (Nat.not_lt.1 hc)] at h
        cases h

/-- Settles O41: the Loader begins with the cursor at 0. -/
theorem loadKeepsTheInvariant : Obligations.LoadKeepsTheInvariant := by
  intro s t source hs h
  obtain ⟨r, hload, rfl⟩ := Option.map_eq_some_iff.1 h
  exact hs.of_loadTokens (Nat.zero_le _) hload

/-! ## The segments of a source (spec/70_reset_and_hazards.md R173, R176, R177) -/

/-- Memory with words written one after another from `cur`. -/
def Memory.writeWords (m : Memory) (cur : Nat) : List Int → Memory
  | [] => m
  | v :: vs => (m.write cur v).writeWords (cur + 1) vs

theorem Memory.writeWords_append (m : Memory) (cur : Nat) (vs ws : List Int) :
    m.writeWords cur (vs ++ ws) = (m.writeWords cur vs).writeWords (cur + vs.length) ws := by
  induction vs generalizing m cur with
  | nil => rfl
  | cons v vs ih =>
    simp only [List.cons_append, Memory.writeWords, ih, List.length_cons]
    rw [Nat.add_right_comm, Nat.add_assoc]

theorem Memory.read_writeWords_below (m : Memory) {cur a : Nat} (h : a < cur) (vs : List Int) :
    (m.writeWords cur vs).read a = m.read a := by
  induction vs generalizing m cur with
  | nil => rfl
  | cons v vs ih => rw [Memory.writeWords, ih _ (Nat.lt_succ_of_lt h), Memory.read_write_ne _ h.ne]

theorem Memory.read_writeWords (m : Memory) (cur k : Nat) (vs : List Int) :
    (m.writeWords cur vs).read (cur + k) = vs[k]?.getD (m.read (cur + k)) := by
  induction vs generalizing m cur k with
  | nil => rfl
  | cons v vs ih =>
    cases k with
    | zero => simp [Memory.writeWords, Memory.read_writeWords_below]
    | succ k =>
      have hne : cur + (k + 1) ≠ cur := by omega
      have hread := ih (m.write cur v) (cur + 1) k
      rw [Nat.add_assoc, Nat.add_comm 1, Memory.read_write_ne m hne] at hread
      exact hread

section Segments

variable {bits seg cur pc : Nat} {m : Memory} {header data code ws : List Int}

/-- A segment is written at the cursor where it fits, and fails the load where it does not. -/
theorem loadTokens_words (hws : ∀ v ∈ ws, LoadableWord bits v) (hcur : cur ≤ capacity) (rest : List Token) :
    loadTokens bits (ws.map .int ++ rest) seg cur m pc =
      if cur + ws.length ≤ capacity then loadTokens bits rest seg (cur + ws.length) (m.writeWords cur ws) pc
      else none := by
  induction ws generalizing cur m with
  | nil => exact (if_pos hcur).symm
  | cons v vs ih =>
    obtain ⟨hv, hvs⟩ := List.forall_mem_cons.1 hws
    rw [List.map_cons, List.cons_append, List.length_cons, ← Nat.add_assoc, Nat.add_right_comm]
    by_cases hc : cur < capacity
    · rw [loadTokens_word hv hc, ih hvs hc, Memory.writeWords]
    · rw [loadTokens_full hv (Nat.not_lt.1 hc), if_neg (by omega)]

theorem loadTokens_segments (h : ∀ v ∈ header ++ data ++ code, LoadableWord bits v) :
    loadTokens bits (header.map .int ++ [.int sentinel] ++ data.map .int ++ [.int sentinel] ++ code.map .int) 0 0 m pc =
      if (header ++ data ++ code).length ≤ capacity then
        some (m.writeWords 0 (header ++ data ++ code), header.length + data.length)
      else none := by
  simp only [List.forall_mem_append] at h
  obtain ⟨⟨hheader, hdata⟩, hcode⟩ := h
  simp only [List.append_assoc, List.cons_append, List.nil_append, List.length_append]
  rw [loadTokens_words hheader (Nat.zero_le _), Nat.zero_add]
  split
  next hfit =>
    rw [loadTokens_sentinel Nat.two_pos, loadTokens_words hdata hfit]
    split
    next hfit' =>
      rw [loadTokens_sentinel Nat.one_lt_two, ← List.append_nil (code.map _), loadTokens_words hcode hfit']
      simp [Memory.writeWords_append, Nat.add_assoc]
    next => rw [if_neg (by omega)]
  next => rw [if_neg (by omega)]

end Segments

/-- Settles O56: the words of the segments are one list, written from address 0 where it fits. -/
theorem loaderPlacesTheSegments : Obligations.LoaderPlacesTheSegments := by
  intro s header data code hwords source
  have hload := loadTokens_segments (m := s.mem) (pc := s.pc) hwords
  refine ⟨fun hlong => ?_, fun hfit => ⟨s.mem.writeWords 0 (header ++ data ++ code), ?_, fun a => ?_⟩⟩
  · rw [State.load_eq_none_iff, hload, if_neg (Nat.not_le.2 hlong)]
  · rw [State.load, hload, if_pos hfit, Option.map_some]
  · have hread := s.mem.read_writeWords 0 a (header ++ data ++ code)
    rwa [Nat.zero_add] at hread

/-! ## The source's example (spec/95_test_vectors.md T11) -/

/-- Words of 16 bits are Words of every width that R9 admits. -/
theorem inWord_of_wf {p : Params} {v : Int} (hp : p.wf = true) (h : inWord 16 v = true) :
    inWord p.wordBits v = true := by
  have h16 : 16 ≤ p.wordBits := by simpa [Params.wf] using hp
  have hpow : 2 ^ (16 - 1) ≤ 2 ^ (p.wordBits - 1) := Nat.pow_le_pow_right Nat.two_pos (by omega)
  rw [inWord_iff, wmin, wmax] at h ⊢
  omega

/-- Settles O55: the text is the tokens of three segments of Words, which fit. -/
theorem loaderExampleOfTheSource : Obligations.LoaderExampleOfTheSource := by
  intro p memInit answers hp
  have hwords : ∀ v ∈ [(5 : Int)] ++ [9, 9] ++ [1200, 1202], v ≠ sentinel ∧ inWord p.wordBits v = true := by
    have hword : ∀ v ∈ [(5 : Int)] ++ [9, 9] ++ [1200, 1202], v ≠ sentinel ∧ inWord 16 v = true := by decide
    exact fun v hv => ⟨(hword v hv).1, inWord_of_wf hp (hword v hv).2⟩
  have htokens : tokens ['5', ' ', '-', '1', '0', '1', ' ', '9', ' ', '9', ' ', '-', '1', '0', '1', ' ',
      '1', '2', '0', '0', ' ', '1', '2', '0', '2'] =
      [5].map .int ++ [.int sentinel] ++ [9, 9].map .int ++ [.int sentinel] ++ [1200, 1202].map .int := by decide
  obtain ⟨-, hshort⟩ := loaderPlacesTheSegments (State.construct p memInit answers) _ _ _ hwords
  obtain ⟨m, hload, hread⟩ := hshort (by decide)
  refine ⟨_, (congrArg _ htokens).trans hload, rfl, hread 0, hread 1, hread 2, hread 3, hread 4, fun a ha h5 => ?_⟩
  calc m.read a = (State.construct p memInit answers).mem.read a := by
        rw [hread a, List.getElem?_eq_none h5, Option.getD_none]
    _ = memInit[a] := Memory.read_empty memInit ha

/-! ## The jump to its own address (spec/70_reset_and_hazards.md R183, R184) -/

section SelfJump

variable {s t : State} {n : Nat}

theorem decode_jmp_word (hn : n ≤ 99) : decode (4000 + n) = some (.jmp n) := by
  simpa [encode, Instr.opcode, Instr.operand] using decode_encode (i := .jmp n) (wellFormed_iff.2 hn)

theorem decode_jz_word (hn : n ≤ 99) : decode (4200 + n) = some (.jz n) := by
  simpa [encode, Instr.opcode, Instr.operand] using decode_encode (i := .jz n) (wellFormed_iff.2 hn)

/-- The machine is about to jump to the address it is at. -/
def AtSelfJump (s : State) : Prop :=
  s.run = .running ∧ s.pc < capacity ∧
    ∃ i, (i = .jmp s.pc ∨ (i = .jz s.pc ∧ s.acc = 0)) ∧ decode (s.mem.read s.pc) = some i

theorem AtSelfJump.step_next (h : AtSelfJump s) : step s = .next (s.setIr (s.mem.read s.pc)) := by
  obtain ⟨hrun, hpc, i, hjump, hd⟩ := h
  exact step_jump_self hjump hrun hpc hd

theorem AtSelfJump.setIr (h : AtSelfJump s) (w : Int) : AtSelfJump (s.setIr w) := h

/-- A run from a self-jump changes `ir` only, so every state of it is at the self-jump. -/
theorem AtSelfJump.eq_setIr_of_reaches (hs : AtSelfJump s) (h : Reaches s t) : t = s.setIr t.ir := by
  refine reaches_induction (P := fun u => u = s.setIr u.ir) (fun a b ha hab => ?_) h rfl
  have hself : AtSelfJump a := ha ▸ hs.setIr a.ir
  rw [hself.step_next, Host.Outcome.next.injEq] at hab
  rw [← hab, ha]
  rfl

end SelfJump

/-- Settles O54: the word at `pc` is that of a self-jump, and a run from a self-jump stays at it. -/
theorem selfJumpNeverHalts : Obligations.SelfJumpNeverHalts := by
  intro s t hrun hpc hword hreach
  have hs : AtSelfJump s := by
    refine ⟨hrun, hpc.trans_lt (by decide), ?_⟩
    obtain hw | ⟨hw, hacc⟩ := hword
    · exact ⟨_, .inl rfl, hw ▸ decode_jmp_word hpc⟩
    · exact ⟨_, .inr ⟨rfl, hacc⟩, hw ▸ decode_jz_word hpc⟩
  have ht := hs.eq_setIr_of_reaches hreach
  have hself : AtSelfJump t := ht ▸ hs.setIr t.ir
  exact ⟨ht, hself.1, _, hself.step_next⟩

end Sys2Proof.Machine
end
